-- ==== Sys2Proof/Word.lean ====
section
/-! DEFINITION. The word types of the machine: what the spec treats as bits (R8, R9, R104, R111). -/

namespace Sys2Proof

/-- A general register, the System register, the PC, an address while it is computed (R8, R50, R51). -/
abbrev Word64 := BitVec 64

/-- An A64 instruction word (R104, R111). -/
abbrev InstrWord := BitVec 32

/-- One byte of memory (R60). -/
abbrev Byte := BitVec 8

end Sys2Proof
end

