-- ==== Sys2Proof/Syntax.lean ====
section
/-! DEFINITION. The instructions: one constructor per row of spec/opcode_table.json, and the fields of a System
register move that stand between a word and an instruction (R100 to R106, R112). -/

namespace Sys2Proof

/-- The one instruction family (R112). Each constructor holds the number `t` of its operand `<Xt>`, 5 bits, 31 naming
the zero register (R105, R127). -/
inductive Instr where
  /-- `MRS <Xt>, VTCR_EL2` (R120). -/
  | mrsVtcrEl2 (t : BitVec 5)
  /-- `MSR VTCR_EL2, <Xt>` (R121). -/
  | msrVtcrEl2 (t : BitVec 5)
  deriving DecidableEq, Repr

/-- The format `SYSREG`: the fields of the word of a System register move (R100, R101, R104). `read` is the bit `L`;
`o0` is bit 0 of `op0`, whose bit 1 is the fixed bit 20. -/
structure SysMove where
  read : Bool
  o0   : BitVec 1
  op1  : BitVec 3
  crn  : BitVec 4
  crm  : BitVec 4
  op2  : BitVec 3
  rt   : BitVec 5
  deriving DecidableEq, Repr

/-- The field `op0` of R100, 2 bits: the fixed bit 20, then `o0` (R104). -/
def SysMove.op0 (m : SysMove) : BitVec 2 := 1#1 ++ m.o0

/-- The System register move an instruction is: both carry the five field values of VTCR_EL2 (R102, R103) and differ
in the direction. -/
def Instr.toSysMove : Instr → SysMove
  | .mrsVtcrEl2 t => ⟨true,  1#1, 0b100#3, 0b0010#4, 0b0001#4, 0b010#3, t⟩
  | .msrVtcrEl2 t => ⟨false, 1#1, 0b100#3, 0b0010#4, 0b0001#4, 0b010#3, t⟩

end Sys2Proof
end

