-- ==== Sys2Proof/WellFormed.lean ====
section
/-! DEFINITION. Which System register moves the model admits: those whose five fields name VTCR_EL2 (R102, R109, R110).
The operand number of an instruction is 5 bits wide and unrestricted (R105), so an instruction of `Instr` has no
ill-formed operand; its move is checked. -/

namespace Sys2Proof

/-- The five fields name VTCR_EL2 (R102). -/
def SysMove.wellFormed (m : SysMove) : Bool :=
  m.op0 == 0b11#2 && m.op1 == 0b100#3 && m.crn == 0b0010#4 && m.crm == 0b0001#4 && m.op2 == 0b010#3

/-- An instruction is well formed when its move names VTCR_EL2. -/
def Instr.wellFormed (i : Instr) : Bool := i.toSysMove.wellFormed

end Sys2Proof
end

