-- ==== Sys2Proof/Decode.lean ====
section
/-! DEFINITION. Decoding bytes into an instruction, and encoding an instruction into its word and bytes (R100 to R112).
The decoder goes through the fields of the System register move (R104) and then checks that they name VTCR_EL2 (R102),
which is both levels of R110. -/

namespace Sys2Proof

/-- Why bytes are no instruction of the model. -/
inductive DecodeError where
  /-- Fewer than the 4 bytes of an instruction (R111). -/
  | truncated
  /-- A word that is not one of the 64 of R104, refused by name (R109). -/
  | unknownWord (w : InstrWord)
  deriving DecidableEq, Repr

/-! ### Decoding -/

/-- The fields of a System register move, by position (R104); none for a word with other fixed bits. -/
def sysMoveOfWord (w : InstrWord) : Option SysMove :=
  if w.extractLsb' 22 10 = 0b1101010100#10 ∧ w.extractLsb' 20 1 = 1#1 then
    some { read := w.extractLsb' 21 1 == 1#1, o0 := w.extractLsb' 19 1, op1 := w.extractLsb' 16 3, crn := w.extractLsb' 12 4,
           crm := w.extractLsb' 8 4, op2 := w.extractLsb' 5 3, rt := w.extractLsb' 0 5 }
  else none

/-- The access to VTCR_EL2 a move is, when its five fields name that register (R102, R110). -/
def instrOfSysMove (m : SysMove) : Option Instr :=
  if m.wellFormed then some (if m.read then .mrsVtcrEl2 m.rt else .msrVtcrEl2 m.rt) else none

/-- The instruction of a 32-bit word, every other word refused by name (R109, R110). -/
def decodeWord (w : InstrWord) : Except DecodeError Instr :=
  match (sysMoveOfWord w).bind instrOfSysMove with
  | some i => .ok i
  | none   => .error (.unknownWord w)

/-- The word of four bytes at ascending addresses: fetch is little-endian (R111). -/
def wordOfBytes (b0 b1 b2 b3 : Byte) : InstrWord := b3 ++ b2 ++ b1 ++ b0

/-- Decodes the first instruction of a list of bytes and returns the rest (R110, R111). -/
def decodeBytes : List Byte → Except DecodeError (Instr × List Byte)
  | b0 :: b1 :: b2 :: b3 :: rest =>
    match decodeWord (wordOfBytes b0 b1 b2 b3) with
    | .ok i    => .ok (i, rest)
    | .error e => .error e
  | _ => .error .truncated

/-! ### Encoding -/

/-- The word of a System register move (R104). -/
def SysMove.word (m : SysMove) : InstrWord :=
  0b1101010100#10 ++ BitVec.ofBool m.read ++ 1#1 ++ m.o0 ++ m.op1 ++ m.crn ++ m.crm ++ m.op2 ++ m.rt

/-- The word of an instruction (R104). -/
def encode (i : Instr) : InstrWord := i.toSysMove.word

/-- The four bytes of a word at ascending addresses (R111). -/
def bytesOfWord (w : InstrWord) : List Byte :=
  [w.extractLsb' 0 8, w.extractLsb' 8 8, w.extractLsb' 16 8, w.extractLsb' 24 8]

/-- The bytes of a word numbered as the opcode table numbers it: the low `nbits` bits of `w`, every bit above them 0. -/
def tableBytes (nbits w : Nat) : List Byte := bytesOfWord (BitVec.ofNat 32 (w % 2 ^ nbits))

/-- The instruction the decoder reads from an instruction whose bits are `w`. -/
def decodeTableWord (nbits w : Nat) : Option Instr :=
  match decodeBytes (tableBytes nbits w) with
  | .ok (i, _) => some i
  | .error _   => none

end Sys2Proof
end

