-- ==== Sys2Proof/Config.lean ====
section
/-! DEFINITION. What an implementation fixes and the spec leaves open: the parameters of R6, and the value VTCR_EL2
resets to (R160). `Config.unstated` and `Config.vtcrResetDraw` have no body, so a theorem about them holds whatever
they are. `HWU_USE` is "not modelled" by R6 itself; `XREG_COUNT` is 31 (R50). -/

namespace Sys2Proof

/-- The four values of `PSTATE.EL` (R52, R141). -/
inductive ExceptionLevel where
  | el0 | el1 | el2 | el3
  deriving DecidableEq, Repr, Inhabited

/-- A translation granule size (R69). -/
inductive Granule where
  | k4 | k16 | k64
  deriving DecidableEq, Repr, Inhabited

/-- The encoding of TG0 the reserved PS value 0b111 follows, one of two (R66). -/
inductive PsReserved where
  | as101 | as110
  deriving DecidableEq, Repr, Inhabited

/-- `GRANULES`: which sizes are implemented (R6, R70). -/
structure GranuleSet where
  has4K  : Bool := true
  has16K : Bool := true
  has64K : Bool := true
  deriving DecidableEq, Repr, Inhabited

/-- Membership in `GRANULES`. -/
def GranuleSet.has (s : GranuleSet) : Granule → Bool
  | .k4  => s.has4K
  | .k16 => s.has16K
  | .k64 => s.has64K

/-- The parameters of R6, with the constraints the rules put on them as proof fields, so that every `Config` is one the
spec admits. No relation between features is assumed (R6, D30). The default values serve only to show that a legal
configuration exists. -/
structure Config where
  /-- `HAVE_EL2` (R47). -/
  haveEl2 : Bool := true
  /-- `HAVE_EL3`: no instruction reads it (R122). -/
  haveEl3 : Bool := true
  /-- `FROM_ARMV8_4` (R25, R26). -/
  fromArmv84 : Bool := true
  /-- `HAVE_TTPBHA` (R27 to R30). -/
  haveTtpbha : Bool := true
  /-- `HAVE_TTHM` (R32, R33). -/
  haveTthm : Bool := true
  /-- `HAVE_VMID16` (R35). -/
  haveVmid16 : Bool := true
  /-- `HAVE_LPA`, which also stands for 52-bit physical addresses (R67, R68). -/
  haveLpa : Bool := true
  /-- `HAVE_TTST` (R41, R76, R77). -/
  haveTtst : Bool := true
  /-- `GRANULES` (R70). -/
  granules : GranuleSet := {}
  /-- `TG0_FALLBACK` (R70). -/
  tg0Fallback : BitVec 2 → Granule := fun _ => .k4
  /-- `TG0_READBACK_EFFECTIVE` (R44). -/
  tg0ReadbackEffective : Bool := false
  /-- `PS_RESERVED_AS` (R66). -/
  psReservedAs : PsReserved := .as101
  /-- `RES_STORED(b)` is bit `b` (R43). -/
  resStored : Word64 := 0
  /-- `TLB_CACHES_VTCR`: read by no rule (R92). -/
  tlbCachesVtcr : Bool := false
  /-- `SL0_T0SZ_CONSISTENT(granule, SL0, T0SZ)` (R78). -/
  sl0T0szConsistent : Granule → BitVec 2 → BitVec 6 → Bool := fun _ _ _ => true
  /-- `NVMEM_BASE` (R85). -/
  nvmemBase : Word64 := 0
  /-- `NVMEM_BIG_ENDIAN` (R86). -/
  nvmemBigEndian : Bool := false
  /-- `RESET_PC` (R163). -/
  resetPc : Word64 := 0
  /-- `RESET_EL` (R163). -/
  resetEl : ExceptionLevel := .el0
  /-- The fallback granule is an implemented one, so `GRANULES` is not empty (R6, R70). -/
  tg0Fallback_implemented : ∀ v, granules.has (tg0Fallback v) = true := by decide
  /-- `NVMEM_BASE` is a multiple of 8 (R87). -/
  nvmemBase_aligned : nvmemBase.toNat % 8 = 0 := by decide
  /-- The slot's last byte, at `NVMEM_BASE + 0x047`, is inside the address space (R124). -/
  nvmemBase_inside : nvmemBase.toNat + 0x48 ≤ 2 ^ 64 := by decide
  /-- The PC is always a multiple of 4 (R111). -/
  resetPc_aligned : resetPc.toNat % 4 = 0 := by decide
  /-- A level that is not implemented is never the current level (R122). -/
  resetEl_implemented :
    (resetEl = .el2 → haveEl2 = true) ∧ (resetEl = .el3 → haveEl3 = true) := by decide
  deriving Inhabited

/-- The implementation, nothing of which the spec states. -/
opaque Config.unstated : Config

/-- The architecturally UNKNOWN value of VTCR_EL2 after reset: the free 64-bit draw of R160 and R161 (log 5). -/
opaque Config.vtcrResetDraw : Word64

end Sys2Proof
end

