-- ==== Sys2Proof/Machine/Implementation.lean ====
section
/-! DEFINITION. The implementation the machine runs as: every parameter of R6 left open, but for the reset entry, which
R163 takes as two parameters and no rule gives (log 6). -/

namespace Sys2Proof.Machine

/-- The configuration `exec` runs under. DESIGN CHOICE (log 6): RESET_PC is 0x80000, where the spec's programs stand,
and RESET_EL is EL3, the highest level, so HAVE_EL3 is true, which no instruction reads (R122). -/
def implementation : Config :=
  { Config.unstated with
    haveEl3 := true
    resetPc := 0x80000#64
    resetEl := .el3
    resetPc_aligned := by decide
    resetEl_implemented := by decide }

end Sys2Proof.Machine
end

