-- ==== Sys2Proof/Machine/Vtcr.lean ====
section
/-! DEFINITION. VTCR_EL2 as a 64-bit value: its fields (R21, R25 to R42), which bits store (R24, R43, R47), what a write
stores and a read returns (R44), the granule in effect (R69, R70), and the value after reset (R160, R161). -/

namespace Sys2Proof.Machine

/-! ### Fields (R21) -/

/-- NSA, bit [30] (R25). -/
def Vtcr.nsa (v : Word64) : Bool := v.getLsbD 30
/-- NSW, bit [29] (R26). -/
def Vtcr.nsw (v : Word64) : Bool := v.getLsbD 29
/-- HWU62, bit [28] (R27). -/
def Vtcr.hwu62 (v : Word64) : Bool := v.getLsbD 28
/-- HWU61, bit [27] (R28). -/
def Vtcr.hwu61 (v : Word64) : Bool := v.getLsbD 27
/-- HWU60, bit [26] (R29). -/
def Vtcr.hwu60 (v : Word64) : Bool := v.getLsbD 26
/-- HWU59, bit [25] (R30). -/
def Vtcr.hwu59 (v : Word64) : Bool := v.getLsbD 25
/-- HD, bit [22] (R32). -/
def Vtcr.hd (v : Word64) : Bool := v.getLsbD 22
/-- HA, bit [21] (R33). -/
def Vtcr.ha (v : Word64) : Bool := v.getLsbD 21
/-- VS, bit [19] (R35). -/
def Vtcr.vs (v : Word64) : Bool := v.getLsbD 19
/-- PS, bits [18:16] (R36). -/
def Vtcr.ps (v : Word64) : BitVec 3 := v.extractLsb' 16 3
/-- TG0, bits [15:14] (R37). -/
def Vtcr.tg0 (v : Word64) : BitVec 2 := v.extractLsb' 14 2
/-- SH0, bits [13:12] (R38). -/
def Vtcr.sh0 (v : Word64) : BitVec 2 := v.extractLsb' 12 2
/-- ORGN0, bits [11:10] (R39). -/
def Vtcr.orgn0 (v : Word64) : BitVec 2 := v.extractLsb' 10 2
/-- IRGN0, bits [9:8] (R40). -/
def Vtcr.irgn0 (v : Word64) : BitVec 2 := v.extractLsb' 8 2
/-- SL0, bits [7:6] (R41). -/
def Vtcr.sl0 (v : Word64) : BitVec 2 := v.extractLsb' 6 2
/-- T0SZ, bits [5:0] (R42). -/
def Vtcr.t0sz (v : Word64) : BitVec 6 := v.extractLsb' 0 6

/-- The AArch32 register VTCR: bits [31:0] of the stored value (R45). No access through it is admitted. -/
def Vtcr.aarch32 (v : Word64) : BitVec 32 := v.extractLsb' 0 32

/-! ### Kinds of bit (R21, R24, R47) -/

/-- The kinds of R44. -/
inductive BitKind where
  | rw | res0 | res1
  deriving DecidableEq, Repr

/-- `Kind(b)`: the table of R21 under the parameters in force, every bit RES0 when EL2 is not implemented (R47). -/
def Vtcr.kind (c : Config) (b : Nat) : BitKind :=
  let field (present : Bool) : BitKind := if present then .rw else .res0
  if c.haveEl2 = false then .res0
  else if 32 ≤ b then .res0
  else if b = 31 then .res1
  else if 29 ≤ b then field c.fromArmv84
  else if 25 ≤ b then field c.haveTtpbha
  else if 23 ≤ b then .res0
  else if 21 ≤ b then field c.haveTthm
  else if b = 20 then .res0
  else if b = 19 then field c.haveVmid16
  else .rw

/-- `k`: what a reserved bit of that kind is hardwired to (R43). -/
def BitKind.constant : BitKind → Bool
  | .res1 => true
  | _     => false

/-- The positions of the fields that exist, as a mask (the masks under the table of R21). -/
def Vtcr.rwMask (c : Config) : Word64 :=
  if c.haveEl2 then
    0x7FFFF#64 ||| (if c.fromArmv84 then 0x60000000#64 else 0) ||| (if c.haveTtpbha then 0x1E000000#64 else 0)
      ||| (if c.haveTthm then 0x600000#64 else 0) ||| (if c.haveVmid16 then 0x80000#64 else 0)
  else 0

/-- The positions that hold what is written: the fields, and each reserved bit with `RES_STORED` true (R43, R44). -/
def Vtcr.storeMask (c : Config) : Word64 := Vtcr.rwMask c ||| c.resStored

/-- The constant `k` of every reserved bit, as a mask: bit [31] is RES1 unless EL2 is absent (R23, R47). -/
def Vtcr.constants (c : Config) : Word64 := if c.haveEl2 then 0x80000000#64 else 0

/-! ### Granule (R69, R70) -/

/-- `Granule(TG0)`; note that 0b01 is 64KB and 0b10 is 16KB (R44, R69). -/
def Vtcr.granuleOf (tg0 : BitVec 2) : Option Granule :=
  match tg0.toNat with
  | 0 => some .k4
  | 1 => some .k64
  | 2 => some .k16
  | _ => none

/-- `Encoding(granule)` (R44). -/
def Vtcr.encodingOf : Granule → BitVec 2
  | .k4  => 0b00
  | .k64 => 0b01
  | .k16 => 0b10

/-- The programmed granule, if TG0 names an implemented one (R70). -/
def Vtcr.implementedGranule (c : Config) (tg0 : BitVec 2) : Option Granule :=
  (Vtcr.granuleOf tg0).filter c.granules.has

/-- `EffTG0()`: the programmed granule, or the implementation's choice where that is reserved or unimplemented (R70). -/
def Vtcr.effTg0 (c : Config) (v : Word64) : Granule :=
  (Vtcr.implementedGranule c (Vtcr.tg0 v)).getD (c.tg0Fallback (Vtcr.tg0 v))

/-! ### Write, read, reset (R44, R160, R161) -/

/-- `WriteVTCR(v)`: bits that store take `v`, the others keep what they hold (R44). -/
def Vtcr.write (c : Config) (old v : Word64) : Word64 :=
  (v &&& Vtcr.storeMask c) ||| (old &&& ~~~ Vtcr.storeMask c)

/-- A value with TG0 replaced (R44). -/
def Vtcr.withTg0 (v : Word64) (tg0 : BitVec 2) : Word64 :=
  v.extractLsb' 16 48 ++ tg0 ++ v.extractLsb' 0 14

/-- `ReadVTCR()`: the stored value, TG0 reading back as the granule chosen where the implementation does so (R44).
DEDUCED (log 12): with EL2 absent there is no TG0 field, and the read is the plain RES0 view of R47. -/
def Vtcr.read (c : Config) (v : Word64) : Word64 :=
  if c.haveEl2 ∧ c.tg0ReadbackEffective ∧ Vtcr.implementedGranule c (Vtcr.tg0 v) = none then
    Vtcr.withTg0 v (Vtcr.encodingOf (Vtcr.effTg0 c v))
  else v

/-- The stored value after reset: the draw in the bits that store (R160, R161), the constant in the others (R161). -/
def Vtcr.afterReset (c : Config) (draw : Word64) : Word64 := Vtcr.write c (Vtcr.constants c) draw

end Sys2Proof.Machine
end

