-- ==== Sys2Proof/Machine/State.lean ====
section
/-! DEFINITION. The state of the machine (R58, with R7, R56 and R93), the reasons a step can stop, and the state after
reset (R160 to R163). -/

namespace Sys2Proof.Machine

/-- Bytes by address, addresses strictly rising. An unlisted address holds no byte (R89, R133; log 10), so no listed
byte can equal what an unlisted address reads as. -/
abbrev Memory := List Host.Cell

/-- The canonical form: addresses strictly rising, each inside the 64-bit address space. -/
abbrev Memory.wf (m : Memory) : Prop :=
  m.Pairwise (fun a b => a.1 < b.1) ∧ ∀ c ∈ m, c.1 < 2 ^ 64

/-- The two Security states (R55). -/
inductive SecurityState where
  | secure | nonSecure
  deriving DecidableEq, Repr

/-- The machine state: R58, the two base registers of R7 and R56, and the program text of R93. One-bit fields of other
registers are Booleans, true for 1 (R53, R54). -/
structure State where
  /-- The stored value of VTCR_EL2 (R20). -/
  vtcrEl2 : Word64
  /-- X0 to X30 (R50). -/
  x : Vector Word64 31
  /-- The address of the instruction being executed (R51). -/
  pc : Word64
  /-- `PSTATE.EL` (R52). -/
  el : ExceptionLevel
  /-- The current Security state (R55). -/
  securityState : SecurityState
  /-- The result of `EL2Enabled()`, an input (R55). -/
  el2Enabled : Bool
  /-- `HCR_EL2.NV`, an input (R53). -/
  hcrNv : Bool
  /-- `HCR_EL2.NV2`, an input (R53). -/
  hcrNv2 : Bool
  /-- `VSTCR_EL2.SA`, an input (R54). -/
  vstcrSa : Bool
  /-- VTTBR_EL2, read and written by no rule (R7, R56; log 9). -/
  vttbrEl2 : Word64
  /-- VSTTBR_EL2, read and written by no rule (R7, R56; log 9). -/
  vsttbrEl2 : Word64
  /-- Memory, of which the rules reach the NVMem slot (R57, R89). -/
  mem : Memory
  /-- The program text, given from outside and fixed for a run (R93; log 11). -/
  text : Memory
  deriving DecidableEq, Repr

/-- The reasons a step stops with a fault. Each leaves the state as it was before the instruction (R136), so a claim
that a run goes on can only become unprovable. -/
inductive Fault where
  /-- `Undefined`: raised by both instructions at EL0, and at EL1 unless EL2 is enabled and `HCR_EL2.NV` is 1 (R130).
  Carries the address and the word of the instruction. Terminal (R136), safe (log 1). -/
  | undefined (address : Word64) (word : InstrWord)
  /-- `SystemAccessTrap(target, code)`: raised by both instructions at EL1 when EL2 is enabled, `HCR_EL2.NV` is 1 and
  `HCR_EL2.NV2` is 0 (R131). Carries the address and the word of the instruction. Terminal (R136), safe (log 2). -/
  | systemAccessTrap (target : ExceptionLevel) (code : Nat) (address : Word64) (word : InstrWord)
  /-- Stuck: raised by both instructions when redirected to memory that does not hold the 8 bytes of `NVMem[0x040]`,
  the address of which it carries (R133). Safe (log 10). -/
  | nvmemAbsent (address : Nat)
  /-- Stuck: raised by the step when the program text has no whole instruction at the PC (R93). Safe (log 11). -/
  | textAbsent (pc : Word64)
  deriving DecidableEq, Repr

/-- The reasons a step is refused: the spec gives the input no meaning. All are safe. -/
inductive Refusal where
  /-- An instruction without a meaning yet, raised by `exec` alone; no arm does. -/
  | notModelled (mnemonic : String)
  /-- A word outside the 64 of R104, raised by the step (R109). -/
  | unknownWord (address : Word64) (word : InstrWord)
  /-- `pc + 4` would pass `2^64 - 1`, raised by both instructions when they would complete (R51; log 4). -/
  | pcOverflow (pc : Word64)
  /-- The program text overlaps the NVMem slot, raised by both instructions when redirected to memory (R93; log 11). -/
  | textOverlapsNvmem (slot : Nat)
  /-- A PC that is no multiple of 4, which R111 says never is; raised by the step (log 4). -/
  | pcMisaligned (pc : Word64)
  deriving DecidableEq, Repr

/-- The state after reset under a configuration, with a draw for the UNKNOWN bits of VTCR_EL2 (R160, R161). The spec
gives no other reset value (R162, R163): the PC and the level are the parameters RESET_PC and RESET_EL, and the rest are
the values of logs 7 to 11. -/
def State.resetOn (c : Config) (draw : Word64) : State where
  vtcrEl2 := Vtcr.afterReset c draw
  x := Vector.replicate 31 0
  pc := c.resetPc
  el := c.resetEl
  securityState := .secure
  el2Enabled := false
  hcrNv := false
  hcrNv2 := false
  vstcrSa := false
  vttbrEl2 := 0
  vsttbrEl2 := 0
  mem := []
  text := []

/-- The machine right after reset. -/
def State.reset : State := State.resetOn implementation Config.vtcrResetDraw

end Sys2Proof.Machine
end

