-- ==== Sys2Proof/Machine/Ops.lean ====
section
/-! DEFINITION. The named operations over memory, the program counter and exceptions. -/

namespace Sys2Proof.Machine

/-- What an instruction or a part of one answers: a value, a fault or a refusal. -/
abbrev Result (α : Type) := Host.Outcome α Fault Refusal

/-- Continues with the value of a part that went through, and stops where the part stops. -/
def Result.andThen {α β : Type} (r : Result α) (f : α → Result β) : Result β :=
  match r with
  | .next a    => f a
  | .fault e   => .fault e
  | .refused e => .refused e

/-! ### Updates of one field -/

/-- The state with another PC. -/
def State.setPc (s : State) (pc : Word64) : State := { s with pc := pc }

/-- The state with another stored value of VTCR_EL2. -/
def State.setVtcr (s : State) (v : Word64) : State := { s with vtcrEl2 := v }

/-- The state with another memory. -/
def State.setMem (s : State) (m : Memory) : State := { s with mem := m }

/-- The state with another program text. -/
def State.setText (s : State) (m : Memory) : State := { s with text := m }

/-! ### Memory -/

/-- The byte an address holds; none where nothing is listed (R89). -/
def Memory.read : Memory → Nat → Option Byte
  | [], _ => none
  | (a, b) :: m, k => if a = k then some b else Memory.read m k

/-- Memory with one byte written; the list stays sorted. -/
def Memory.write : Memory → Nat → Byte → Memory
  | [], k, v => [(k, v)]
  | (a, b) :: m, k, v =>
    if k < a then (k, v) :: (a, b) :: m
    else if k = a then (k, v) :: m
    else (a, b) :: Memory.write m k v

/-- The `n` bytes from an address upward, if memory holds them all. -/
def Memory.readBytes (m : Memory) (k : Nat) : Nat → Option (List Byte)
  | 0 => some []
  | n + 1 =>
    match m.read k, Memory.readBytes m (k + 1) n with
    | some b, some bs => some (b :: bs)
    | _, _ => none

/-- Memory with a list of bytes written from an address upward. -/
def Memory.writeBytes (m : Memory) (k : Nat) : List Byte → Memory
  | [] => m
  | b :: bs => Memory.writeBytes (m.write k b) (k + 1) bs

/-! ### The NVMem slot (R85 to R88) -/

/-- The address of `NVMem[0x040]`: `NVMEM_BASE + 0x040` (R85). -/
def slotAddress (c : Config) : Nat := c.nvmemBase.toNat + 0x040

/-- Byte `i` of a 64-bit value in memory: bits `[8i+7:8i]`, or `[63-8i:56-8i]` when big-endian (R86). -/
def slotByte (bigEndian : Bool) (v : Word64) (i : Nat) : Byte :=
  if bigEndian then v.extractLsb' (56 - 8 * i) 8 else v.extractLsb' (8 * i) 8

/-- The 8 bytes of a 64-bit value at ascending addresses (R86). -/
def slotBytes (bigEndian : Bool) (v : Word64) : List Byte := (List.range 8).map (slotByte bigEndian v)

/-- The 64-bit value whose most significant byte is the first of the list. -/
def valueOfBytes (bs : List Byte) : Word64 :=
  bs.foldl (fun v b => (v <<< 8) ||| b.setWidth 64) 0

/-- The 64-bit value that 8 bytes at ascending addresses hold (R86). -/
def slotValue (bigEndian : Bool) (bs : List Byte) : Word64 :=
  valueOfBytes (if bigEndian then bs else bs.reverse)

/-- The program text has a byte inside the 8 of the slot, which R93 requires it not to. -/
def textOverlapsSlot (c : Config) (s : State) : Bool :=
  s.text.any fun cell => decide (slotAddress c ≤ cell.1) && decide (cell.1 < slotAddress c + 8)

/-- The 8 bytes of the slot, where the access is admitted: the text does not overlap them (R93) and memory holds them
all (R133). DESIGN CHOICE (log 20): where both conditions fail, which the spec does not rank, the refusal comes before
the stuck outcome. -/
def slotContents (c : Config) (s : State) : Result (List Byte) :=
  if textOverlapsSlot c s then .refused (.textOverlapsNvmem (slotAddress c))
  else
    match s.mem.readBytes (slotAddress c) 8 with
    | none    => .fault (.nvmemAbsent (slotAddress c))
    | some bs => .next bs

/-- `MemRead(NVMEM_BASE + 0x040, 8)` (R85). -/
def readNvmem (c : Config) (s : State) : Result Word64 :=
  (slotContents c s).andThen fun bs => .next (slotValue c.nvmemBigEndian bs)

/-- `MemWrite(NVMEM_BASE + 0x040, 8, v)` (R85). -/
def writeNvmem (c : Config) (v : Word64) (s : State) : Result State :=
  (slotContents c s).andThen fun _ =>
    .next (s.setMem (s.mem.writeBytes (slotAddress c) (slotBytes c.nvmemBigEndian v)))

/-! ### Completing and raising -/

/-- `pc <- pc + 4` (R123), refused where that would pass `2^64 - 1` (R51). -/
def complete (s : State) : Result State :=
  if s.pc.toNat + 4 < 2 ^ 64 then .next (s.setPc (s.pc + 4)) else .refused (.pcOverflow s.pc)

/-- The exceptions the two instructions raise (R130, R131). -/
inductive Exception where
  | undefined
  | systemAccessTrap (target : ExceptionLevel) (code : Nat)
  deriving DecidableEq, Repr

/-- Taking an exception. The spec describes no entry: the step ends in the fault outcome that names the exception and
carries the address and the word of the instruction, with every piece of state as it was (R130, R131, R136), and there
is no return (R137). -/
def takeException {α : Type} (e : Exception) (word : InstrWord) (s : State) : Result α :=
  match e with
  | .undefined => .fault (.undefined s.pc word)
  | .systemAccessTrap target code => .fault (.systemAccessTrap target code s.pc word)

/-! ### Fetch (R111, R93) -/

/-- The four bytes of the instruction at the PC, from the program text. -/
def fetch (s : State) : Option (List Byte) := s.text.readBytes s.pc.toNat 4

end Sys2Proof.Machine
end

