-- ==== Sys2Proof/Machine/Operands.lean ====
section
/-! DEFINITION. The operands of the two instructions: the general register `<Xt>` (R50, R105, R127), and the place an
access to VTCR_EL2 reaches in a state (R122). -/

namespace Sys2Proof.Machine

/-- `x[t]`; number 31 is the zero register and reads as 64 zero bits (R50, R127). -/
def State.readX (s : State) (t : BitVec 5) : Word64 :=
  if h : t.toNat < 31 then s.x[t.toNat] else 0

/-- `x[t] <- v`; a write to number 31 is discarded (R50, R127). -/
def State.writeX (s : State) (t : BitVec 5) (v : Word64) : State :=
  if h : t.toNat < 31 then { s with x := s.x.set t.toNat v } else s

/-- Where an access goes: the last two columns of R122. -/
inductive Route where
  /-- `UNDEFINED` (R130). -/
  | undefinedAccess
  /-- `AArch64.SystemAccessTrap(EL2, 0x18)` (R131, R138). -/
  | trapToEl2
  /-- `NVMem[0x040]` (R85, R139). -/
  | nvmem
  /-- The register itself (R142). -/
  | register
  deriving DecidableEq, Repr

/-- The arm of the access pseudocode a state selects, in the order of its `if` chain (R13, R122, R134). -/
def route (s : State) : Route :=
  match s.el with
  | .el0 => .undefinedAccess
  | .el1 =>
    if s.el2Enabled && (s.hcrNv2 && s.hcrNv) then .nvmem
    else if s.el2Enabled && s.hcrNv then .trapToEl2
    else .undefinedAccess
  | .el2 => .register
  | .el3 => .register

/-- The exception a System register access trapped to EL2 raises: target EL2, code 0x18 (R131). -/
def trapToEl2 : Exception := .systemAccessTrap .el2 0x18

end Sys2Proof.Machine
end

