-- ==== Sys2Proof/Machine/SystemRegister.lean ====
section
/-! DEFINITION. The meanings of the two instructions (R120, R121), for any configuration and for the machine's own. -/

namespace Sys2Proof.Machine

/-- `MRS <Xt>, VTCR_EL2` under a configuration (R120). -/
def execMrsVtcrEl2On (c : Config) (t : BitVec 5) (s : State) : Result State :=
  match route s with
  | .undefinedAccess => takeException .undefined (encode (.mrsVtcrEl2 t)) s
  | .trapToEl2       => takeException trapToEl2 (encode (.mrsVtcrEl2 t)) s
  | .nvmem           => (readNvmem c s).andThen fun v => complete (s.writeX t v)
  | .register        => complete (s.writeX t (Vtcr.read c s.vtcrEl2))

/-- `MSR VTCR_EL2, <Xt>` under a configuration (R121). -/
def execMsrVtcrEl2On (c : Config) (t : BitVec 5) (s : State) : Result State :=
  match route s with
  | .undefinedAccess => takeException .undefined (encode (.msrVtcrEl2 t)) s
  | .trapToEl2       => takeException trapToEl2 (encode (.msrVtcrEl2 t)) s
  | .nvmem           => (writeNvmem c (s.readX t) s).andThen complete
  | .register        => complete (s.setVtcr (Vtcr.write c s.vtcrEl2 (s.readX t)))

/-- `MRS <Xt>, VTCR_EL2` (R120). -/
def execMrsVtcrEl2 (t : BitVec 5) (s : State) : Result State := execMrsVtcrEl2On implementation t s

/-- `MSR VTCR_EL2, <Xt>` (R121). -/
def execMsrVtcrEl2 (t : BitVec 5) (s : State) : Result State := execMsrVtcrEl2On implementation t s

end Sys2Proof.Machine
end

