-- ==== Sys2Proof/Machine/Dispatch.lean ====
section
/-! DEFINITION. One arm per instruction, each one call of its meaning. -/

namespace Sys2Proof.Machine

def exec (i : Instr) (s : State) : Host.Outcome State Fault Refusal :=
  match i with
  | .mrsVtcrEl2 t => Sys2Proof.Machine.execMrsVtcrEl2 t s
  | .msrVtcrEl2 t => Sys2Proof.Machine.execMsrVtcrEl2 t s

end Sys2Proof.Machine
end

