-- ==== Sys2Proof/Machine/Step.lean ====
section
/-! DEFINITION. One step: fetch at the PC, decode, execute (R90, R93, R109, R111). -/

namespace Sys2Proof.Machine

/-- One step of the PE. The instruction itself moves the PC (R123); the step adds nothing around it.
DESIGN CHOICE (log 20): at a misaligned PC without text the refusal comes before the stuck outcome. -/
def step (s : State) : Host.Outcome State Fault Refusal :=
  if s.pc.toNat % 4 = 0 then
    match fetch s with
    | none => .fault (.textAbsent s.pc)
    | some bytes =>
      match decodeBytes bytes with
      | .ok (i, _) => exec i s
      | .error (.unknownWord w) => .refused (.unknownWord s.pc w)
      | .error .truncated => .fault (.textAbsent s.pc)
  else .refused (.pcMisaligned s.pc)

/-- The state with an instruction, numbered as the opcode table numbers its bits, in the program text at the PC. It
stands for loading a program from outside (R93; log 11). -/
def State.withFetchWord (s : State) (nbits w : Nat) : State :=
  s.setText (s.text.writeBytes s.pc.toNat (tableBytes nbits w))

end Sys2Proof.Machine
end

