-- ==== Sys2Proof/Machine/Syndrome.lean ====
section
/-! DEFINITION. What hardware reports of a trapped access, by the general-knowledge passage G8. The outcome of R131
carries only target and code with the address and word; no rule and no step uses this view. PRESUMED (log 2). -/

namespace Sys2Proof.Machine

/-- The ISS of a trapped System register move: Op0 [21:20], Op2 [19:17], Op1 [16:14], CRn [13:10], Rt [9:5],
CRm [4:1], Direction [0] (G8). -/
def trapIss (m : SysMove) : BitVec 25 :=
  0#3 ++ m.op0 ++ m.op2 ++ m.op1 ++ m.crn ++ m.rt ++ m.crm ++ BitVec.ofBool m.read

/-- The value of `ESR_EL2`: EC 0x18, IL 1, the ISS (G8). -/
def trapSyndrome (i : Instr) : BitVec 32 := 0x18#6 ++ 1#1 ++ trapIss i.toSysMove

end Sys2Proof.Machine
end

