-- ==== Sys2Proof/Machine/Stage2.lean ====
section
/-! DEFINITION. What the fields of VTCR_EL2 set for stage 2 translation, as one pure function of state and configuration
(R65). No step translates (R61, D14), so no step reads this view. -/

namespace Sys2Proof.Machine

/-! ### Size and output address (R62 to R68) -/

/-- `RegionSize`: two to the power 64 minus T0SZ, over the naturals (R62). -/
def Stage2.regionSize (v : Word64) : Nat := 2 ^ (64 - (Vtcr.t0sz v).toNat)

/-- `PSBits`: address bits of the seven defined values of PS (R64). -/
def Stage2.psBits (ps : BitVec 3) : Option Nat :=
  match ps.toNat with
  | 0 => some 32
  | 1 => some 36
  | 2 => some 40
  | 3 => some 42
  | 4 => some 44
  | 5 => some 48
  | 6 => some 52
  | _ => none

/-- The encoding the reserved PS value follows (R66). -/
def Stage2.codeOfReserved : PsReserved → BitVec 3
  | .as101 => 0b101
  | .as110 => 0b110

/-- `EffPS()` (R66). -/
def Stage2.effPs (c : Config) (v : Word64) : BitVec 3 :=
  if Vtcr.ps v = 0b111 then Stage2.codeOfReserved c.psReservedAs else Vtcr.ps v

/-- The value 0b110 is permitted: 52-bit addresses and the 64KB granule (R67). -/
def Stage2.ps110Permitted (c : Config) (v : Word64) : Bool :=
  c.haveLpa && Vtcr.effTg0 c v == .k64

/-- `OutputBits`; no value when 0b110 is in effect and not permitted (R64, R66, R67). -/
def Stage2.outputBits (c : Config) (v : Word64) : Option Nat :=
  if Stage2.effPs c v = 0b110 && !Stage2.ps110Permitted c v then none else Stage2.psBits (Stage2.effPs c v)

/-- The output address size in bytes (R64). -/
def Stage2.outputSize (c : Config) (v : Word64) : Option Nat := (Stage2.outputBits c v).map (2 ^ ·)

/-! ### Start level (R75 to R78) -/

/-- A level 0 to 3, or Reserved (R75). -/
inductive StartLevel where
  | level (n : Fin 4)
  | reserved
  deriving DecidableEq, Repr

/-- `StartLevelOf(granule, SL0)`: the tables of R76 and R77. -/
def Stage2.startLevelOf (c : Config) (g : Granule) (sl0 : BitVec 2) : StartLevel :=
  match sl0.toNat, g with
  | 0, .k4 => .level 2
  | 0, _   => .level 3
  | 1, .k4 => .level 1
  | 1, _   => .level 2
  | 2, .k4 => .level 0
  | 2, _   => .level 1
  | _, .k4 => if c.haveTtst then .level 3 else .reserved
  | _, _   => .reserved

/-- `StartLevel` (R65, R75). -/
def Stage2.startLevel (c : Config) (v : Word64) : StartLevel :=
  Stage2.startLevelOf c (Vtcr.effTg0 c v) (Vtcr.sl0 v)

/-- `Level0Fault`: a translation attempted now generates a stage 2 level 0 Translation fault (R78, R132). -/
def Stage2.level0Fault (c : Config) (v : Word64) : Bool :=
  Stage2.startLevel c v == .reserved
    || !c.sl0T0szConsistent (Vtcr.effTg0 c v) (Vtcr.sl0 v) (Vtcr.t0sz v)

/-! ### Attributes of walks (R71 to R74) -/

/-- Shareability (R71). -/
inductive Shareability where
  | nonShareable | outerShareable | innerShareable
  deriving DecidableEq, Repr

/-- Cacheability of Normal memory, the same four for Outer and Inner (R73, R74). -/
inductive Cacheability where
  | nonCacheable
  | writeBackReadAllocateWriteAllocate
  | writeThroughReadAllocateNoWriteAllocate
  | writeBackReadAllocateNoWriteAllocate
  deriving DecidableEq, Repr

/-- The meaning of SH0; none for the reserved 0b01 (R71, R72). -/
def Stage2.shareabilityOf (sh0 : BitVec 2) : Option Shareability :=
  match sh0.toNat with
  | 0 => some .nonShareable
  | 2 => some .outerShareable
  | 3 => some .innerShareable
  | _ => none

/-- The meaning of ORGN0 and of IRGN0 (R73, R74). -/
def Stage2.cacheabilityOf (rgn0 : BitVec 2) : Cacheability :=
  match rgn0.toNat with
  | 0 => .nonCacheable
  | 1 => .writeBackReadAllocateWriteAllocate
  | 2 => .writeThroughReadAllocateNoWriteAllocate
  | _ => .writeBackReadAllocateNoWriteAllocate

/-! ### Security state of outputs and walks (R79, R80) -/

/-- `EffNSA()` (R79). -/
def Stage2.effNsa (s : State) : Bool :=
  if s.securityState = .nonSecure ∨ Vtcr.nsw s.vtcrEl2 ∨ s.vstcrSa then true else Vtcr.nsa s.vtcrEl2

/-- `EffNSW()` (R80). -/
def Stage2.effNsw (s : State) : Bool :=
  if s.securityState = .nonSecure then true else Vtcr.nsw s.vtcrEl2

/-- The PA space a bit selects: 1 is the Non-secure PA space, 0 the Secure one (R79, R80). -/
def Stage2.paSpaceOf (ns : Bool) : SecurityState := if ns then .nonSecure else .secure

/-! ### The view (R65) -/

/-- `HWUse[59..62]`: which of bits [62:59] of a Block or Page entry hardware can use (R82). -/
structure HwUse where
  bit62 : Bool
  bit61 : Bool
  bit60 : Bool
  bit59 : Bool
  deriving DecidableEq, Repr

/-- The record of R65, with R68 beside it; a component whose field does not exist is none. -/
structure Stage2Config where
  regionSize        : Nat
  outputBits        : Option Nat
  tableBaseHighZero : Option Bool
  granule           : Granule
  startLevel        : StartLevel
  walkShare         : Option Shareability
  walkOuter         : Cacheability
  walkInner         : Cacheability
  outputNs          : Option Bool
  walkNs            : Option Bool
  accessFlagHw      : Option Bool
  dirtyHw           : Option Bool
  hwUse             : Option HwUse
  vmid16            : Option Bool
  level0Fault       : Bool
  deriving DecidableEq, Repr

/-- A component that is there only when its feature is. -/
def Stage2.present {α : Type} (feature : Bool) (a : α) : Option α := if feature then some a else none

/-- With 52-bit addresses, whether bits [51:48] of every table base address are 0b0000 (R68). DESIGN CHOICE (log 21):
without 52-bit addresses, of which R68 says nothing, the component is none. -/
def Stage2.tableBaseHighZero (c : Config) (v : Word64) : Option Bool :=
  Stage2.present c.haveLpa (Stage2.effPs c v != 0b110)

/-- The components while EL2 is enabled (R65). -/
def Stage2.view (c : Config) (s : State) : Stage2Config :=
  let v := s.vtcrEl2
  { regionSize := Stage2.regionSize v
    outputBits := Stage2.outputBits c v
    tableBaseHighZero := Stage2.tableBaseHighZero c v
    granule := Vtcr.effTg0 c v
    startLevel := Stage2.startLevel c v
    walkShare := Stage2.shareabilityOf (Vtcr.sh0 v)
    walkOuter := Stage2.cacheabilityOf (Vtcr.orgn0 v)
    walkInner := Stage2.cacheabilityOf (Vtcr.irgn0 v)
    outputNs := Stage2.present c.fromArmv84 (Stage2.effNsa s)
    walkNs := Stage2.present c.fromArmv84 (Stage2.effNsw s)
    accessFlagHw := Stage2.present c.haveTthm (Vtcr.ha v)
    dirtyHw := Stage2.present c.haveTthm (Vtcr.hd v && Vtcr.ha v)
    hwUse := Stage2.present c.haveTtpbha ⟨Vtcr.hwu62 v, Vtcr.hwu61 v, Vtcr.hwu60 v, Vtcr.hwu59 v⟩
    vmid16 := Stage2.present c.haveVmid16 (Vtcr.vs v)
    level0Fault := Stage2.level0Fault c v }

/-- EL2 is implemented and enabled in the current Security state: what R55 says `EL2Enabled()` implies, so that a bit
that is RES0 because EL2 is absent has no effect in any state (R43, R47). -/
def Stage2.hasEffect (c : Config) (s : State) : Bool := c.haveEl2 && s.el2Enabled

/-- `Stage2Config()`: defined only while EL2 is enabled in the current Security state, because the register has no
effect otherwise (R48, R65). -/
def stage2Config (c : Config) (s : State) : Option Stage2Config :=
  if Stage2.hasEffect c s then some (Stage2.view c s) else none

/-- The size of the VMID in bits: 16 when VS exists and is 1, else 8 (R84); none while the register has no effect
(R48). -/
def Stage2.vmidBits (c : Config) (s : State) : Option Nat :=
  (stage2Config c s).map fun k => if k.vmid16 = some true then 16 else 8

/-- What the spec says of a stage 2 translation attempted in a state. -/
inductive Stage2Attempt where
  /-- EL2 is not enabled: the register has no effect (R48). -/
  | noEffect
  /-- SH0 is 0b01: refused (R72). -/
  | refusedShareability
  /-- PS is 0b110, or is treated so, and that is not permitted: refused (R67). -/
  | refusedOutputSize
  /-- A stage 2 level 0 Translation fault is generated (R78, R132). -/
  | level0TranslationFault
  /-- The translation goes on under this configuration; the walk itself is out of scope (R5 b). -/
  | configured (view : Stage2Config)
  deriving DecidableEq, Repr

/-- What the spec says of a stage 2 translation attempted in this state. DEDUCED (log 13): where a refusal and the fault
both apply, the refusal wins. -/
def stage2Attempt (c : Config) (s : State) : Stage2Attempt :=
  match stage2Config c s with
  | none => .noEffect
  | some view =>
    if view.walkShare = none then .refusedShareability
    else if view.outputBits = none then .refusedOutputSize
    else if view.level0Fault then .level0TranslationFault
    else .configured view

end Sys2Proof.Machine
end

