-- ==== Sys2Proof/Safety.lean ====
section
/-! DEFINITION. What counts as a legal state and a safe run, in the terms claims use. -/

namespace Sys2Proof.Safety

open Sys2Proof.Machine

/-- The invariant of R44: a reserved bit that does not store holds its constant. -/
def ReservedBitsHold (c : Config) (v : Word64) : Prop :=
  ∀ b : Nat, b < 64 → Vtcr.kind c b ≠ .rw → c.resStored.getLsbD b = false →
    v.getLsbD b = (Vtcr.kind c b).constant

/-- The premises on the level and on `EL2Enabled()`: a level that is not implemented is never current, and cannot be
enabled (R55, R122). -/
def LevelsLegal (c : Config) (s : State) : Prop :=
  (s.el = .el2 → c.haveEl2 = true) ∧ (s.el = .el3 → c.haveEl3 = true) ∧ (s.el2Enabled = true → c.haveEl2 = true)

/-- The invariant of the machine: hardwired bits hold (R44), levels are legal (R55, R122), the PC is a multiple of 4
(R111), memory and text are in canonical form. -/
structure Inv (c : Config) (s : State) : Prop where
  reserved : ReservedBitsHold c s.vtcrEl2
  levels   : LevelsLegal c s
  pc       : s.pc.toNat % 4 = 0
  mem      : s.mem.wf
  text     : s.text.wf

/-- The NVMem access is admitted: the text has no byte in the slot (R93) and memory holds its 8 bytes (R133). -/
def NvmemAdmitted (c : Config) (s : State) : Prop :=
  (∀ cell ∈ s.text, ¬ (slotAddress c ≤ cell.1 ∧ cell.1 < slotAddress c + 8)) ∧
  ∀ i, i < 8 → (s.mem.read (slotAddress c + i)).isSome = true

/-- What the written value must satisfy before stage 2 translation is used: (a) to (e) of R165. -/
def Usable (c : Config) (v : Word64) : Prop :=
  c.sl0T0szConsistent (Vtcr.effTg0 c v) (Vtcr.sl0 v) (Vtcr.t0sz v) = true ∧
  (Vtcr.sl0 v = 0b11 → c.haveTtst = true ∧ Vtcr.effTg0 c v = .k4) ∧
  Vtcr.implementedGranule c (Vtcr.tg0 v) ≠ none ∧
  Vtcr.sh0 v ≠ 0b01 ∧
  Vtcr.ps v ≠ 0b111 ∧
  (Vtcr.ps v = 0b110 → c.haveLpa = true ∧ Vtcr.effTg0 c v = .k64)

/-- The register arms of R122. -/
def AtEl2OrEl3 (s : State) : Prop := s.el = .el2 ∨ s.el = .el3

/-- The redirected arm of R122: EL1 with `EL2Enabled() && HCR_EL2.<NV2,NV> == '11'`. -/
def Redirected (s : State) : Prop :=
  s.el = .el1 ∧ s.el2Enabled = true ∧ s.hcrNv2 = true ∧ s.hcrNv = true

/-- The PC has room for the next instruction (R51). -/
def PcHasRoom (s : State) : Prop := s.pc.toNat + 4 < 2 ^ 64

/-- The four bytes of a word stand in the program text at the PC, a multiple of 4 (R111). -/
def FetchesBytes (s : State) (b0 b1 b2 b3 : Byte) : Prop :=
  s.pc.toNat % 4 = 0 ∧ s.text.read s.pc.toNat = some b0 ∧ s.text.read (s.pc.toNat + 1) = some b1 ∧
    s.text.read (s.pc.toNat + 2) = some b2 ∧ s.text.read (s.pc.toNat + 3) = some b3

/-- The step fetches and decodes this instruction. -/
def Runs (s : State) (i : Instr) : Prop :=
  ∃ b0 b1 b2 b3, FetchesBytes s b0 b1 b2 b3 ∧ decodeWord (wordOfBytes b0 b1 b2 b3) = .ok i

/-- An outcome with a function applied to its next state; faults and refusals stay. -/
def mapNext (f : State → State) : Result State → Result State
  | .next s    => .next (f s)
  | .fault e   => .fault e
  | .refused e => .refused e

/-- A step is safe when it ends in a next state: no exception handler is ever part of a claim (R136). -/
def StepSafe (s : State) : Prop := ∃ t, step s = .next t

end Sys2Proof.Safety
end

