-- ==== Sys2Proof/Certificates/Slice0/Obligations.lean ====
section
/-! DEFINITION. The statements for the provers. Each docstring names the rule of spec/ it formalises. A statement about
`exec` or `step` is about the machine's own configuration `implementation`, of which nothing but the reset entry is
fixed; a statement about the register alone is for every configuration `c`. -/

open Sys2Proof Sys2Proof.Machine Sys2Proof.Safety

/-! ### Encoding -/

/-- R104, R110, R111: the bytes of a well-formed instruction, whatever follows them, decode to that instruction and leave
what follows. The word layout is general knowledge in the spec (G5, G6). -/
def Obligations.DecodingTheBytesOfAnInstruction : Prop :=
  ∀ (i : Instr) (rest : List Byte), i.wellFormed = true →
    decodeBytes (bytesOfWord (encode i) ++ rest) = .ok (i, rest)

/-- R104, R109: a word that decodes is the word of the instruction it decodes to, so no word outside the 64 decodes. -/
def Obligations.OnlyAnInstructionsOwnWordDecodes : Prop :=
  ∀ (w : InstrWord) (i : Instr), decodeWord w = .ok i → encode i = w

/-- R110: decoding by the five fields is decoding by mask and match, every other word refused by name. -/
def Obligations.DecodingByMaskAndMatch : Prop :=
  ∀ w : InstrWord, decodeWord w =
    if w &&& 0xFFFFFFE0#32 = 0xD53C2140#32 then .ok (.mrsVtcrEl2 (w.extractLsb' 0 5))
    else if w &&& 0xFFFFFFE0#32 = 0xD51C2140#32 then .ok (.msrVtcrEl2 (w.extractLsb' 0 5))
    else .error (.unknownWord w)

/-- R102, R103: both instructions carry the five field values of VTCR_EL2, and differ in the direction alone. -/
def Obligations.BothInstructionsNameVtcrByItsFiveFields : Prop :=
  (∀ i : Instr, i.toSysMove.op0 = 0b11 ∧ i.toSysMove.op1 = 0b100 ∧ i.toSysMove.crn = 0b0010 ∧
    i.toSysMove.crm = 0b0001 ∧ i.toSysMove.op2 = 0b010) ∧
  ∀ t, (Instr.mrsVtcrEl2 t).toSysMove = { (Instr.msrVtcrEl2 t).toSysMove with read := true } ∧
    (Instr.msrVtcrEl2 t).toSysMove.read = false

/-- Words written out bit by bit from R104 decode to what they stand for, and neighbours that differ in one field of
R102 or one fixed bit are refused by name (R109). -/
def Obligations.WrittenOutWordsDecode : Prop :=
  decodeWord 0b11010101001111000010000101000101#32 = .ok (.mrsVtcrEl2 5) ∧
  decodeWord 0b11010101000111000010000101011111#32 = .ok (.msrVtcrEl2 31) ∧
  decodeWord 0xD53C2120#32 = .error (.unknownWord 0xD53C2120#32) ∧
  decodeWord 0xD5342140#32 = .error (.unknownWord 0xD5342140#32)

/-! ### A step -/

/-- A step at bytes that decode is `exec` of the instruction at the same state, with nothing around it (R18, R111). -/
def Obligations.StepRunsTheDecodedInstruction : Prop :=
  ∀ (s : State) (i : Instr), Runs s i → step s = exec i s

/-- R109: a word that is neither instruction's is refused by name, with its address. -/
def Obligations.StepRefusesEveryOtherWord : Prop :=
  ∀ (s : State) (b0 b1 b2 b3 : Byte), FetchesBytes s b0 b1 b2 b3 →
    wordOfBytes b0 b1 b2 b3 &&& 0xFFFFFFE0#32 ≠ 0xD53C2140#32 →
    wordOfBytes b0 b1 b2 b3 &&& 0xFFFFFFE0#32 ≠ 0xD51C2140#32 →
    step s = .refused (.unknownWord s.pc (wordOfBytes b0 b1 b2 b3))

/-- Where the program text does not hold the four bytes at an aligned PC the step is stuck, and a PC that is no multiple
of 4 is refused: the model's own stops (logs 4 and 11). -/
def Obligations.StepStopsWithoutAnInstruction : Prop :=
  ∀ s : State,
    (s.pc.toNat % 4 = 0 → (∃ k, k < 4 ∧ s.text.read (s.pc.toNat + k) = none) → step s = .fault (.textAbsent s.pc)) ∧
    (s.pc.toNat % 4 ≠ 0 → step s = .refused (.pcMisaligned s.pc))

/-- An instruction's word, placed where the step fetches, is the instruction the next step runs (log 11). -/
def Obligations.APlacedWordIsRunNext : Prop :=
  ∀ (s : State) (i : Instr), s.pc.toNat % 4 = 0 →
    step (s.withFetchWord 32 (encode i).toNat) = exec i (s.withFetchWord 32 (encode i).toNat)

/-! ### MRS and MSR where they complete -/

/-- R120, R50, R123: at EL2 and EL3 MRS completes; `x[t]` is the read view of the register (discarded for t = 31), the PC
moves past the instruction, and nothing else changes. The PC step, the zero register and the delivery to `<Xt>` are the
spec's own readings (G6, G7, the derivation in R120). -/
def Obligations.MrsAtEl2AndEl3ReadsTheRegister : Prop :=
  ∀ (t : BitVec 5) (s : State), AtEl2OrEl3 s → PcHasRoom s →
    ∃ s', exec (.mrsVtcrEl2 t) s = .next s' ∧ s' = { s with x := s'.x, pc := s.pc + 4 } ∧
      ∀ u, s'.readX u = if u = t ∧ u ≠ 31 then Vtcr.read implementation s.vtcrEl2 else s.readX u

/-- R121, R44, R123: at EL2 and EL3 MSR completes whatever the value; each bit of the register that is RW or stores takes
the bit of `x[t]`, every other bit keeps what it held, the PC moves past the instruction, and nothing else changes. -/
def Obligations.MsrAtEl2AndEl3WritesTheRegister : Prop :=
  ∀ (t : BitVec 5) (s : State), AtEl2OrEl3 s → PcHasRoom s →
    ∃ s', exec (.msrVtcrEl2 t) s = .next s' ∧ s' = { s with vtcrEl2 := s'.vtcrEl2, pc := s.pc + 4 } ∧
      ∀ b, b < 64 → s'.vtcrEl2.getLsbD b =
        if Vtcr.kind implementation b = .rw ∨ implementation.resStored.getLsbD b = true
        then (s.readX t).getLsbD b else s.vtcrEl2.getLsbD b

/-- R120, R85, R86: at EL1 with EL2 enabled and NV2:NV = 11, MRS completes where the access is admitted; the bytes of
`x[t]` are those the slot holds (discarded for t = 31), the PC moves past the instruction, and nothing else changes. -/
def Obligations.MrsRedirectedReadsTheSlot : Prop :=
  ∀ (t : BitVec 5) (s : State), Redirected s → NvmemAdmitted implementation s → PcHasRoom s →
    ∃ s', exec (.mrsVtcrEl2 t) s = .next s' ∧ s' = { s with x := s'.x, pc := s.pc + 4 } ∧
      (∀ u, u ≠ t ∨ u = 31 → s'.readX u = s.readX u) ∧
      (t ≠ 31 → ∀ k, k < 8 → s.mem.read (slotAddress implementation + k) =
        some (slotByte implementation.nvmemBigEndian (s'.readX t) k))

/-- R121, R85, R86, R126: in the same state MSR completes; the slot holds the bytes of `x[t]`, with no mask, every byte
outside it is as before, the PC moves past the instruction, and nothing else changes, VTCR_EL2 included. -/
def Obligations.MsrRedirectedWritesTheSlot : Prop :=
  ∀ (t : BitVec 5) (s : State), Redirected s → NvmemAdmitted implementation s → PcHasRoom s →
    ∃ s', exec (.msrVtcrEl2 t) s = .next s' ∧ s' = { s with mem := s'.mem, pc := s.pc + 4 } ∧
      (∀ k, k < 8 → s'.mem.read (slotAddress implementation + k) =
        some (slotByte implementation.nvmemBigEndian (s.readX t) k)) ∧
      ∀ a, a < slotAddress implementation ∨ slotAddress implementation + 8 ≤ a → s'.mem.read a = s.mem.read a

/-- R127: from XZR, MSR clears every RW field and leaves each bit that is neither RW nor stored; to XZR, MRS only moves
the PC. The zero register is general knowledge in the spec (G7). -/
def Obligations.TheZeroRegisterAsOperand : Prop :=
  ∀ s : State, AtEl2OrEl3 s → PcHasRoom s →
    exec (.mrsVtcrEl2 31) s = .next (s.setPc (s.pc + 4)) ∧
    ∃ s', exec (.msrVtcrEl2 31) s = .next s' ∧
      ∀ b, b < 64 →
        (Vtcr.kind implementation b = .rw → s'.vtcrEl2.getLsbD b = false) ∧
        (Vtcr.kind implementation b ≠ .rw → implementation.resStored.getLsbD b = false →
          s'.vtcrEl2.getLsbD b = s.vtcrEl2.getLsbD b)

/-! ### Frames -/

/-- R120, R128: whatever arm it takes, an MRS that goes on changes no register but its destination, no byte of memory
(it stores nothing in any form), not VTCR_EL2 and no other System register or mode. -/
def Obligations.MrsFrame : Prop :=
  ∀ (t : BitVec 5) (s s' : State), exec (.mrsVtcrEl2 t) s = .next s' →
    (∀ u, u ≠ t ∨ u = 31 → s'.readX u = s.readX u) ∧ (∀ a, s'.mem.read a = s.mem.read a) ∧
    s'.vtcrEl2 = s.vtcrEl2 ∧ s'.el = s.el ∧ s'.securityState = s.securityState ∧ s'.el2Enabled = s.el2Enabled ∧
    s'.hcrNv = s.hcrNv ∧ s'.hcrNv2 = s.hcrNv2 ∧ s'.vstcrSa = s.vstcrSa ∧ s'.vttbrEl2 = s.vttbrEl2 ∧
    s'.vsttbrEl2 = s.vsttbrEl2 ∧ s'.text = s.text

/-- R121, R128: an MSR that goes on changes no general register, no other System register and no mode. At EL2 and EL3 it
stores to no byte of memory; otherwise it stores to the slot alone and leaves VTCR_EL2. -/
def Obligations.MsrFrame : Prop :=
  ∀ (t : BitVec 5) (s s' : State), exec (.msrVtcrEl2 t) s = .next s' →
    (∀ u, s'.readX u = s.readX u) ∧
    (if s.el = .el2 ∨ s.el = .el3 then ∀ a, s'.mem.read a = s.mem.read a
     else s'.vtcrEl2 = s.vtcrEl2 ∧
       ∀ a, a < slotAddress implementation ∨ slotAddress implementation + 8 ≤ a → s'.mem.read a = s.mem.read a) ∧
    s'.el = s.el ∧ s'.securityState = s.securityState ∧ s'.el2Enabled = s.el2Enabled ∧
    s'.hcrNv = s.hcrNv ∧ s'.hcrNv2 = s.hcrNv2 ∧ s'.vstcrSa = s.vstcrSa ∧ s'.vttbrEl2 = s.vttbrEl2 ∧
    s'.vsttbrEl2 = s.vsttbrEl2 ∧ s'.text = s.text

/-! ### Exceptions and stops -/

/-- R130, R122: both instructions raise Undefined exactly at EL0 and at EL1 without EL2 enabled and NV = 1, with the
address and the word of the instruction. That the outcome is terminal and carries both is the spec's decision D7. -/
def Obligations.UndefinedExactlyWhereThePseudocodeSaysSo : Prop :=
  ∀ (i : Instr) (s : State),
    (exec i s = .fault (.undefined s.pc (encode i)) ↔
      s.el = .el0 ∨ (s.el = .el1 ∧ ¬ (s.el2Enabled = true ∧ s.hcrNv = true))) ∧
    ∀ a w, exec i s = .fault (.undefined a w) → a = s.pc ∧ w = encode i

/-- R131, R138: both instructions are trapped to EL2 with code 0x18 exactly at EL1 with EL2 enabled, NV = 1 and NV2 = 0,
with the address and the word of the instruction. That the outcome is terminal and carries both is decision D8. -/
def Obligations.TrapToEl2ExactlyUnderNvWithoutNv2 : Prop :=
  ∀ (i : Instr) (s : State),
    (exec i s = .fault (.systemAccessTrap .el2 0x18 s.pc (encode i)) ↔
      s.el = .el1 ∧ s.el2Enabled = true ∧ s.hcrNv = true ∧ s.hcrNv2 = false) ∧
    ∀ target code a w, exec i s = .fault (.systemAccessTrap target code a w) →
      target = .el2 ∧ code = 0x18 ∧ a = s.pc ∧ w = encode i

/-- R134: the Exception level is tested first; at EL1 the redirection to memory comes before the trap, although the
trap's own condition also holds, and the trap before Undefined; at EL0 the access is Undefined and never trapped,
whatever NV is; at EL2 and EL3 it reaches the register, whatever the other conditions are. -/
def Obligations.RedirectionPrecedesTrapPrecedesUndefined : Prop :=
  ∀ (i : Instr) (s : State),
    (Redirected s → ∀ target code a w, exec i s ≠ .fault (.systemAccessTrap target code a w) ∧
      exec i s ≠ .fault (.undefined a w)) ∧
    (Redirected s →
      (∀ t, i = .mrsVtcrEl2 t → exec i s = (readNvmem implementation s).andThen fun v => complete (s.writeX t v)) ∧
      ∀ t, i = .msrVtcrEl2 t → exec i s = (writeNvmem implementation (s.readX t) s).andThen complete) ∧
    (AtEl2OrEl3 s →
      (∀ t, i = .mrsVtcrEl2 t → exec i s = complete (s.writeX t (Vtcr.read implementation s.vtcrEl2))) ∧
      ∀ t, i = .msrVtcrEl2 t → exec i s = complete (s.setVtcr (Vtcr.write implementation s.vtcrEl2 (s.readX t)))) ∧
    (s.el = .el1 → s.el2Enabled = true → s.hcrNv = true → s.hcrNv2 = false →
      ∃ a w, exec i s = .fault (.systemAccessTrap .el2 0x18 a w)) ∧
    (s.el = .el1 → ¬ (s.el2Enabled = true ∧ s.hcrNv = true) → ∃ a w, exec i s = .fault (.undefined a w)) ∧
    (s.el = .el0 → ∃ a w, exec i s = .fault (.undefined a w))

/-- R133: redirected to memory that lacks one of the slot's eight bytes, with the program text off the slot, both
instructions are stuck. -/
def Obligations.AnAbsentSlotIsStuck : Prop :=
  ∀ (i : Instr) (s : State), Redirected s → textOverlapsSlot implementation s = false →
    (∃ k, k < 8 ∧ s.mem.read (slotAddress implementation + k) = none) →
    exec i s = .fault (.nvmemAbsent (slotAddress implementation))

/-- R93, D13: redirected to a slot that the program text overlaps, both instructions are refused. That they are so even
where memory lacks the slot is the model's order of the two stops (log 20). -/
def Obligations.TextOnTheSlotIsRefused : Prop :=
  ∀ (i : Instr) (s : State) (a : Nat) (b : Byte), Redirected s →
    (a, b) ∈ s.text → slotAddress implementation ≤ a → a < slotAddress implementation + 8 →
    exec i s = .refused (.textOverlapsNvmem (slotAddress implementation))

/-- R51: where they would complete, at EL2, at EL3 and through an admitted slot, both instructions are refused exactly
where `pc + 4` would pass 2^64 - 1 (decision D4). -/
def Obligations.PcPastTheTopIsRefused : Prop :=
  ∀ (i : Instr) (s : State), AtEl2OrEl3 s ∨ (Redirected s ∧ NvmemAdmitted implementation s) →
    (exec i s = .refused (.pcOverflow s.pc) ↔ 2 ^ 64 ≤ s.pc.toNat + 4)

/-! ### Laws of the two paths -/

/-- R125: an MRS at EL2 or EL3 that finds the register as an MSR at EL2 or EL3 left it delivers, bit by bit, the value
written where the bit is RW or stores and the constant elsewhere, but for TG0 where the implementation reads back the
granule chosen (with EL2 implemented, log 12). -/
def Obligations.MrsAfterMsrAtEl2OrEl3 : Prop :=
  ∀ (n m : BitVec 5) (s s1 u u2 : State), AtEl2OrEl3 s → ReservedBitsHold implementation s.vtcrEl2 →
    exec (.msrVtcrEl2 n) s = .next s1 → AtEl2OrEl3 u → u.vtcrEl2 = s1.vtcrEl2 →
    exec (.mrsVtcrEl2 m) u = .next u2 → m ≠ 31 →
    ∀ b, b < 64 → (u2.readX m).getLsbD b =
      if implementation.haveEl2 = true ∧ implementation.tg0ReadbackEffective = true ∧
          Vtcr.implementedGranule implementation (Vtcr.tg0 (s.readX n)) = none ∧ (b = 14 ∨ b = 15) then
        (Vtcr.encodingOf (Vtcr.effTg0 implementation (s.readX n))).getLsbD (b - 14)
      else if Vtcr.kind implementation b = .rw ∨ implementation.resStored.getLsbD b = true then (s.readX n).getLsbD b
      else (Vtcr.kind implementation b).constant

/-- R126: a redirected MRS that finds the slot as a redirected MSR left it delivers the value written in all 64 bits, and
VTCR_EL2 is as it was before both. -/
def Obligations.MrsAfterMsrThroughMemory : Prop :=
  ∀ (n m : BitVec 5) (s s1 u u2 : State), Redirected s → exec (.msrVtcrEl2 n) s = .next s1 → Redirected u →
    (∀ k, k < 8 → u.mem.read (slotAddress implementation + k) = s1.mem.read (slotAddress implementation + k)) →
    u.vtcrEl2 = s1.vtcrEl2 → exec (.mrsVtcrEl2 m) u = .next u2 → m ≠ 31 →
    u2.readX m = s.readX n ∧ u2.vtcrEl2 = s.vtcrEl2

/-- R88: an instruction executed a second time at the same place leaves the state of the first, on every path: a read
has no side effect, and writing the same value twice is writing it once. -/
def Obligations.RepeatingAnAccessChangesNothing : Prop :=
  ∀ (i : Instr) (s s' : State), exec i s = .next s' → exec i (s'.setPc s.pc) = .next s'

/-! ### The whole machine -/

/-- R44, R55, R111, R122: every step keeps the invariant: hardwired bits at their constant, levels legal, the PC a
multiple of 4, memory and text in canonical form. -/
def Obligations.EveryStepKeepsTheInvariant : Prop :=
  ∀ s t : State, Inv implementation s → step s = .next t → Inv implementation t

/-- R160, R161: reset establishes the invariant, for every configuration and every draw, the machine's own among them. -/
def Obligations.ResetEstablishesTheInvariant : Prop :=
  (∀ (c : Config) (draw : Word64), Inv c (State.resetOn c draw)) ∧ Inv implementation State.reset

/-- R160, R161: after reset a bit of VTCR_EL2 is the draw's where it is RW or stores and its constant elsewhere, for
every draw. -/
def Obligations.ResetDrawsTheBitsThatStore : Prop :=
  ∀ (c : Config) (draw : Word64) (b : Nat), b < 64 →
    (State.resetOn c draw).vtcrEl2.getLsbD b =
      if Vtcr.kind c b = .rw ∨ c.resStored.getLsbD b = true then draw.getLsbD b else (Vtcr.kind c b).constant

/-- The model's own reset values, which no rule gives: PC 0x80000 and EL3 (log 6), general registers 0 (log 7), inputs
(log 8), base registers (log 9), nothing in memory and text (logs 10 and 11). -/
def Obligations.ResetValuesTheModelChose : Prop :=
  State.reset.pc = 0x80000 ∧ State.reset.el = .el3 ∧ (∀ t, State.reset.readX t = 0) ∧
  State.reset.securityState = .secure ∧ State.reset.el2Enabled = false ∧ State.reset.hcrNv = false ∧
  State.reset.hcrNv2 = false ∧ State.reset.vstcrSa = false ∧ State.reset.vttbrEl2 = 0 ∧
  State.reset.vsttbrEl2 = 0 ∧ State.reset.mem = [] ∧ State.reset.text = []

/-- R123, R51: a step that goes on leaves the PC 4 further, without passing the top. -/
def Obligations.EveryStepAdvancesThePcByFour : Prop :=
  ∀ s t : State, step s = .next t → t.pc.toNat = s.pc.toNat + 4

/-- R7, R52, R93, R128: no step writes the level, the Security state, `EL2Enabled()`, the bits of HCR_EL2 and VSTCR_EL2,
the base registers or the program text. -/
def Obligations.NoStepWritesTheInputs : Prop :=
  ∀ s t : State, step s = .next t →
    t.el = s.el ∧ t.securityState = s.securityState ∧ t.el2Enabled = s.el2Enabled ∧ t.hcrNv = s.hcrNv ∧
    t.hcrNv2 = s.hcrNv2 ∧ t.vstcrSa = s.vstcrSa ∧ t.vttbrEl2 = s.vttbrEl2 ∧ t.vsttbrEl2 = s.vsttbrEl2 ∧ t.text = s.text

/-- R19, R142: a step leaves VTCR_EL2 as it was unless it runs an MSR at EL2 or EL3. -/
def Obligations.OnlyAnMsrAtEl2OrEl3ChangesVtcr : Prop :=
  ∀ s t : State, step s = .next t → (AtEl2OrEl3 s ∧ ∃ n, Runs s (.msrVtcrEl2 n)) ∨ t.vtcrEl2 = s.vtcrEl2

/-- R61, R128: a step leaves a byte of memory as it was unless it runs a redirected MSR and the byte is one of the
slot's eight. -/
def Obligations.OnlyARedirectedMsrChangesMemory : Prop :=
  ∀ (s t : State) (a : Nat), step s = .next t →
    (Redirected s ∧ (∃ n, Runs s (.msrVtcrEl2 n)) ∧
      slotAddress implementation ≤ a ∧ a < slotAddress implementation + 8) ∨ t.mem.read a = s.mem.read a

/-- R50, R120, R121: a step leaves what a general register reads as unless it runs the MRS to that register, which is
not the zero register. -/
def Obligations.OnlyItsMrsChangesARegister : Prop :=
  ∀ (s t : State) (u : BitVec 5), step s = .next t → (u ≠ 31 ∧ Runs s (.mrsVtcrEl2 u)) ∨ t.readX u = s.readX u

/-- R142, R126, R139: software at EL0 and EL1 neither learns nor changes VTCR_EL2: with another value in the register
every step has the same outcome, but for that value, which stays. -/
def Obligations.BelowEl2VtcrIsIsolated : Prop :=
  ∀ (s : State) (v : Word64), s.el = .el0 ∨ s.el = .el1 →
    step (s.setVtcr v) = mapNext (fun t => t.setVtcr v) (step s) ∧ (∀ t, step s = .next t → t.vtcrEl2 = s.vtcrEl2)

/-- R122, R143: at EL0, EL2 and EL3 neither `EL2Enabled()`, NV2 and NV nor the Security state, VSTCR_EL2.SA, the base
registers and memory are consulted: with other values there the outcome is the same, but for those values, which stay. -/
def Obligations.OtherInputsAreNotConsulted : Prop :=
  ∀ (i : Instr) (s : State) (enabled nv nv2 sa : Bool) (q : SecurityState) (b b' : Word64) (m : Memory), s.el ≠ .el1 →
    let other : State → State := fun t =>
      { t with el2Enabled := enabled, hcrNv := nv, hcrNv2 := nv2, vstcrSa := sa, securityState := q,
               vttbrEl2 := b, vsttbrEl2 := b', mem := m }
    exec i (other s) = mapNext other (exec i s)

/-! ### The register -/

/-- R21: the fields and reserved ranges, most significant first, put together are the register: every bit is in exactly
one of them. -/
def Obligations.TheFieldsMakeUpTheRegister : Prop :=
  ∀ v : Word64, v =
    v.extractLsb' 32 32 ++ v.extractLsb' 31 1 ++ BitVec.ofBool (Vtcr.nsa v) ++ BitVec.ofBool (Vtcr.nsw v) ++
    BitVec.ofBool (Vtcr.hwu62 v) ++ BitVec.ofBool (Vtcr.hwu61 v) ++ BitVec.ofBool (Vtcr.hwu60 v) ++
    BitVec.ofBool (Vtcr.hwu59 v) ++ v.extractLsb' 23 2 ++ BitVec.ofBool (Vtcr.hd v) ++ BitVec.ofBool (Vtcr.ha v) ++
    v.extractLsb' 20 1 ++ BitVec.ofBool (Vtcr.vs v) ++ Vtcr.ps v ++ Vtcr.tg0 v ++ Vtcr.sh0 v ++ Vtcr.orgn0 v ++
    Vtcr.irgn0 v ++ Vtcr.sl0 v ++ Vtcr.t0sz v

/-- R21: with EL2 implemented, the kind of every bit as the table gives it. -/
def Obligations.TheKindOfEveryBit : Prop :=
  ∀ c : Config, c.haveEl2 = true →
    let field (present : Bool) : BitKind := if present then .rw else .res0
    (∀ b, 32 ≤ b → b < 64 → Vtcr.kind c b = .res0) ∧ Vtcr.kind c 31 = .res1 ∧
    (∀ b, b = 30 ∨ b = 29 → Vtcr.kind c b = field c.fromArmv84) ∧
    (∀ b, 25 ≤ b → b ≤ 28 → Vtcr.kind c b = field c.haveTtpbha) ∧
    (∀ b, b = 24 ∨ b = 23 ∨ b = 20 → Vtcr.kind c b = .res0) ∧
    (∀ b, b = 22 ∨ b = 21 → Vtcr.kind c b = field c.haveTthm) ∧ Vtcr.kind c 19 = field c.haveVmid16 ∧
    ∀ b, b ≤ 18 → Vtcr.kind c b = .rw

/-- R44: a write is the rule's loop over the bits: a bit that is RW or stores takes the written one, every other keeps
what it holds. -/
def Obligations.WriteIsTheLoopOverTheBits : Prop :=
  ∀ (c : Config) (old v : Word64) (b : Nat), b < 64 →
    (Vtcr.write c old v).getLsbD b =
      if Vtcr.kind c b = .rw ∨ c.resStored.getLsbD b = true then v.getLsbD b else old.getLsbD b

/-- R44: with EL2 implemented, a read is the stored value, but for TG0 where the implementation reads back the granule
chosen and the programmed one is reserved or unimplemented. -/
def Obligations.ReadIsTheStoredValueButForTg0 : Prop :=
  ∀ (c : Config) (v : Word64), c.haveEl2 = true →
    (∀ b, b < 64 → b ≠ 14 → b ≠ 15 → (Vtcr.read c v).getLsbD b = v.getLsbD b) ∧
    Vtcr.tg0 (Vtcr.read c v) =
      if c.tg0ReadbackEffective = true ∧ (∀ g, Vtcr.granuleOf (Vtcr.tg0 v) = some g → c.granules.has g = false)
      then Vtcr.encodingOf (Vtcr.effTg0 c v) else Vtcr.tg0 v

/-- R47, C2: without EL2 every bit is RES0 from EL3: after a write a bit reads as written where it stores and as 0
elsewhere, bit 31 and TG0 included (log 12), and an access at EL1 in a legal state is Undefined. -/
def Obligations.WithoutEl2TheRegisterIsRes0 : Prop :=
  ∀ c : Config, c.haveEl2 = false →
    (∀ old v : Word64, ReservedBitsHold c old → ∀ b, b < 64 →
      (Vtcr.read c (Vtcr.write c old v)).getLsbD b = (c.resStored.getLsbD b && v.getLsbD b)) ∧
    ∀ (s : State) (t : BitVec 5), LevelsLegal c s → s.el = .el1 →
      execMrsVtcrEl2On c t s = .fault (.undefined s.pc (encode (.mrsVtcrEl2 t))) ∧
      execMsrVtcrEl2On c t s = .fault (.undefined s.pc (encode (.msrVtcrEl2 t)))

/-! ### Stage 2 -/

/-- R62: the region size is two to the power 64 minus T0SZ over the naturals: T0SZ = 0 gives 2^64, not 0, and T0SZ = 63
gives 2. -/
def Obligations.RegionSizeIsAPowerOfTwo : Prop :=
  (∀ v : Word64, Stage2.regionSize v = 2 ^ (64 - (v.toNat % 64))) ∧
  (∀ v : Word64, v.toNat % 64 = 0 → Stage2.regionSize v = 18446744073709551616) ∧
  ∀ v : Word64, v.toNat % 64 = 63 → Stage2.regionSize v = 2

/-- R69: the encodings of TG0; note that 0b01 is 64KB and 0b10 is 16KB. -/
def Obligations.TheEncodingsOfTg0 : Prop :=
  Vtcr.granuleOf 0b00 = some .k4 ∧ Vtcr.granuleOf 0b01 = some .k64 ∧ Vtcr.granuleOf 0b10 = some .k16 ∧
  Vtcr.granuleOf 0b11 = none

/-- R70: the granule in effect is an implemented one; it is the programmed one where that is implemented, and the
implementation's choice for the programmed value where it is not. -/
def Obligations.TheGranuleInEffectIsImplemented : Prop :=
  ∀ (c : Config) (v : Word64),
    c.granules.has (Vtcr.effTg0 c v) = true ∧
    (∀ g, Vtcr.granuleOf (Vtcr.tg0 v) = some g → c.granules.has g = true → Vtcr.effTg0 c v = g) ∧
    ((∀ g, Vtcr.granuleOf (Vtcr.tg0 v) = some g → c.granules.has g = false) →
      Vtcr.effTg0 c v = c.tg0Fallback (Vtcr.tg0 v))

/-- R64, R66: the output address sizes, the reserved value following one of two encodings, as the implementation does. -/
def Obligations.TheOutputAddressSizes : Prop :=
  ∀ (c : Config) (v : Word64),
    (Vtcr.ps v = 0b000 → Stage2.outputBits c v = some 32 ∧ Stage2.outputSize c v = some (2 ^ 32)) ∧
    (Vtcr.ps v = 0b001 → Stage2.outputBits c v = some 36 ∧ Stage2.outputSize c v = some (2 ^ 36)) ∧
    (Vtcr.ps v = 0b010 → Stage2.outputBits c v = some 40 ∧ Stage2.outputSize c v = some (2 ^ 40)) ∧
    (Vtcr.ps v = 0b011 → Stage2.outputBits c v = some 42 ∧ Stage2.outputSize c v = some (2 ^ 42)) ∧
    (Vtcr.ps v = 0b100 → Stage2.outputBits c v = some 44 ∧ Stage2.outputSize c v = some (2 ^ 44)) ∧
    (Vtcr.ps v = 0b101 → Stage2.outputBits c v = some 48 ∧ Stage2.outputSize c v = some (2 ^ 48)) ∧
    (Vtcr.ps v = 0b110 → c.haveLpa = true → Vtcr.effTg0 c v = .k64 →
      Stage2.outputBits c v = some 52 ∧ Stage2.outputSize c v = some (2 ^ 52)) ∧
    (Vtcr.ps v = 0b111 → c.psReservedAs = .as101 → Stage2.outputBits c v = some 48) ∧
    (Vtcr.ps v = 0b111 → c.psReservedAs = .as110 → c.haveLpa = true → Vtcr.effTg0 c v = .k64 →
      Stage2.outputBits c v = some 52)

/-- R67: 0b110, programmed or treated so, has a value only with 52-bit addresses and the 64KB granule in effect; there is
no other case without one. -/
def Obligations.FiftyTwoBitsOnlyWhenPermitted : Prop :=
  ∀ (c : Config) (v : Word64),
    Stage2.outputBits c v = none ↔
      Stage2.effPs c v = 0b110 ∧ ¬ (c.haveLpa = true ∧ Vtcr.effTg0 c v = .k64)

/-- R68: with 52-bit physical addresses, bits [51:48] of the table base addresses are 0 exactly where PS is neither 0b110
nor treated as 0b110. Without them, where the rule says nothing, the component is absent (log 21). -/
def Obligations.TableBaseHighBitsAreZeroBelow52Bits : Prop :=
  ∀ (c : Config) (s : State), c.haveEl2 = true → s.el2Enabled = true →
    ∃ view, stage2Config c s = some view ∧
      (c.haveLpa = true →
        (view.tableBaseHighZero = some true ↔
          ¬ (Vtcr.ps s.vtcrEl2 = 0b110 ∨ (Vtcr.ps s.vtcrEl2 = 0b111 ∧ c.psReservedAs = .as110))) ∧
        (view.tableBaseHighZero = some false ↔
          Vtcr.ps s.vtcrEl2 = 0b110 ∨ (Vtcr.ps s.vtcrEl2 = 0b111 ∧ c.psReservedAs = .as110))) ∧
      (c.haveLpa = false → view.tableBaseHighZero = none)

/-- R76: the start levels when ARMv8.4-TTST is implemented. -/
def Obligations.StartLevelsWithTtst : Prop :=
  ∀ c : Config, c.haveTtst = true →
    (Stage2.startLevelOf c .k4 0b00 = .level 2 ∧ Stage2.startLevelOf c .k16 0b00 = .level 3 ∧
      Stage2.startLevelOf c .k64 0b00 = .level 3) ∧
    (Stage2.startLevelOf c .k4 0b01 = .level 1 ∧ Stage2.startLevelOf c .k16 0b01 = .level 2 ∧
      Stage2.startLevelOf c .k64 0b01 = .level 2) ∧
    (Stage2.startLevelOf c .k4 0b10 = .level 0 ∧ Stage2.startLevelOf c .k16 0b10 = .level 1 ∧
      Stage2.startLevelOf c .k64 0b10 = .level 1) ∧
    (Stage2.startLevelOf c .k4 0b11 = .level 3 ∧ Stage2.startLevelOf c .k16 0b11 = .reserved ∧
      Stage2.startLevelOf c .k64 0b11 = .reserved)

/-- R77: the start levels otherwise. -/
def Obligations.StartLevelsWithoutTtst : Prop :=
  ∀ c : Config, c.haveTtst = false →
    (Stage2.startLevelOf c .k4 0b00 = .level 2 ∧ Stage2.startLevelOf c .k16 0b00 = .level 3 ∧
      Stage2.startLevelOf c .k64 0b00 = .level 3) ∧
    (Stage2.startLevelOf c .k4 0b01 = .level 1 ∧ Stage2.startLevelOf c .k16 0b01 = .level 2 ∧
      Stage2.startLevelOf c .k64 0b01 = .level 2) ∧
    (Stage2.startLevelOf c .k4 0b10 = .level 0 ∧ Stage2.startLevelOf c .k16 0b10 = .level 1 ∧
      Stage2.startLevelOf c .k64 0b10 = .level 1) ∧
    ∀ g, Stage2.startLevelOf c g 0b11 = .reserved

/-- R78, R132: a translation would generate a level 0 Translation fault exactly where SL0 is reserved for the granule in
effect or not consistent with T0SZ. -/
def Obligations.Level0FaultExactlyWhereReservedOrInconsistent : Prop :=
  ∀ (c : Config) (v : Word64),
    Stage2.level0Fault c v = true ↔
      (Vtcr.sl0 v = 0b11 ∧ ¬ (c.haveTtst = true ∧ Vtcr.effTg0 c v = .k4)) ∨
      c.sl0T0szConsistent (Vtcr.effTg0 c v) (Vtcr.sl0 v) (Vtcr.t0sz v) = false

/-- R71, R73, R74: the attributes of walks. -/
def Obligations.TheAttributesOfWalks : Prop :=
  Stage2.shareabilityOf 0b00 = some .nonShareable ∧ Stage2.shareabilityOf 0b10 = some .outerShareable ∧
  Stage2.shareabilityOf 0b11 = some .innerShareable ∧
  ∀ (c : Config) (s : State),
    (Stage2.view c s).walkShare = Stage2.shareabilityOf (s.vtcrEl2.extractLsb' 12 2) ∧
    (Stage2.view c s).walkOuter = Stage2.cacheabilityOf (s.vtcrEl2.extractLsb' 10 2) ∧
    (Stage2.view c s).walkInner = Stage2.cacheabilityOf (s.vtcrEl2.extractLsb' 8 2) ∧
    Stage2.cacheabilityOf 0b00 = .nonCacheable ∧
    Stage2.cacheabilityOf 0b01 = .writeBackReadAllocateWriteAllocate ∧
    Stage2.cacheabilityOf 0b10 = .writeThroughReadAllocateNoWriteAllocate ∧
    Stage2.cacheabilityOf 0b11 = .writeBackReadAllocateNoWriteAllocate

/-- R79: NSA behaves as 1 in Non-secure state, or with NSW or VSTCR_EL2.SA at 1, and as itself otherwise; the component
exists from Armv8.4 only. The bit is read back as it is. -/
def Obligations.WhenNsaBehavesAsOne : Prop :=
  ∀ (c : Config) (s : State),
    ((s.securityState = .nonSecure ∨ Vtcr.nsw s.vtcrEl2 = true ∨ s.vstcrSa = true) → Stage2.effNsa s = true) ∧
    (¬ (s.securityState = .nonSecure ∨ Vtcr.nsw s.vtcrEl2 = true ∨ s.vstcrSa = true) →
      Stage2.effNsa s = Vtcr.nsa s.vtcrEl2) ∧
    (Stage2.view c s).outputNs = (if c.fromArmv84 = true then some (Stage2.effNsa s) else none) ∧
    Stage2.paSpaceOf false = .secure ∧ Stage2.paSpaceOf true = .nonSecure ∧
    Vtcr.nsa (Vtcr.read c s.vtcrEl2) = Vtcr.nsa s.vtcrEl2

/-- R80: NSW behaves as 1 in Non-secure state and as itself otherwise; the component exists from Armv8.4 only; and in
Secure state with SA = 0 the pair (NSW, NSA) = (1, 0) has the effect of (1, 1). -/
def Obligations.WhenNswBehavesAsOne : Prop :=
  ∀ (c : Config) (s : State),
    (s.securityState = .nonSecure → Stage2.effNsw s = true) ∧
    (s.securityState = .secure → Stage2.effNsw s = Vtcr.nsw s.vtcrEl2) ∧
    (Stage2.view c s).walkNs = (if c.fromArmv84 = true then some (Stage2.effNsw s) else none) ∧
    Vtcr.nsw (Vtcr.read c s.vtcrEl2) = Vtcr.nsw s.vtcrEl2 ∧
    ∀ v v' : Word64, s.securityState = .secure → s.vstcrSa = false → Vtcr.nsw v = true → Vtcr.nsw v' = true →
      Stage2.effNsa (s.setVtcr v) = Stage2.effNsa (s.setVtcr v') ∧
      Stage2.effNsw (s.setVtcr v) = Stage2.effNsw (s.setVtcr v')

/-- R81, R82, R83, R84: hardware update of the Access flag by HA, of dirty state by HD only with HA, hardware use of
entry bits by the HWU fields, and a 16-bit VMID by VS, each only where its field exists; the VMID has a size only while
EL2 is implemented and enabled (R47, R48). -/
def Obligations.HardwareUpdatesAndVmidSize : Prop :=
  ∀ (c : Config) (s : State),
    (Stage2.view c s).accessFlagHw = (if c.haveTthm = true then some (s.vtcrEl2.getLsbD 21) else none) ∧
    (Stage2.view c s).dirtyHw =
      (if c.haveTthm = true then some (s.vtcrEl2.getLsbD 22 && s.vtcrEl2.getLsbD 21) else none) ∧
    (Stage2.view c s).hwUse =
      (if c.haveTtpbha = true then
        some ⟨s.vtcrEl2.getLsbD 28, s.vtcrEl2.getLsbD 27, s.vtcrEl2.getLsbD 26, s.vtcrEl2.getLsbD 25⟩ else none) ∧
    (Stage2.view c s).vmid16 = (if c.haveVmid16 = true then some (s.vtcrEl2.getLsbD 19) else none) ∧
    (Stage2.vmidBits c s = some 16 ↔
      c.haveEl2 = true ∧ s.el2Enabled = true ∧ c.haveVmid16 = true ∧ s.vtcrEl2.getLsbD 19 = true) ∧
    (Stage2.vmidBits c s = some 8 ↔
      c.haveEl2 = true ∧ s.el2Enabled = true ∧ ¬ (c.haveVmid16 = true ∧ s.vtcrEl2.getLsbD 19 = true)) ∧
    (Stage2.vmidBits c s = none ↔ ¬ (c.haveEl2 = true ∧ s.el2Enabled = true))

/-- R48, R47: while EL2 is not enabled in the current Security state, or not implemented, the register has no effect:
there is no configuration and no VMID size, whatever it holds; while EL2 is implemented and enabled there is one. -/
def Obligations.NoEffectWhileEl2IsNotEnabled : Prop :=
  ∀ (c : Config) (s : State),
    (s.el2Enabled = false ∨ c.haveEl2 = false → ∀ v, stage2Config c (s.setVtcr v) = none ∧
      Stage2.vmidBits c (s.setVtcr v) = none ∧ stage2Attempt c (s.setVtcr v) = .noEffect) ∧
    (c.haveEl2 = true → s.el2Enabled = true →
      stage2Config c s = some (Stage2.view c s) ∧ stage2Attempt c s ≠ .noEffect)

/-- R72, R67, R78, R132: while EL2 is enabled, a translation with SH0 = 0b01 is refused, one whose 0b110 is not permitted
is refused, and otherwise it faults at level 0 where the start level is reserved or inconsistent. The two refusals are
the spec's decisions D24 and D34, and that they win over the fault is the model's reading (log 13). -/
def Obligations.WhenATranslationIsRefusedOrFaults : Prop :=
  ∀ (c : Config) (s : State), c.haveEl2 = true → s.el2Enabled = true →
    (stage2Attempt c s = .refusedShareability ↔ Vtcr.sh0 s.vtcrEl2 = 0b01) ∧
    (stage2Attempt c s = .refusedOutputSize ↔ Vtcr.sh0 s.vtcrEl2 ≠ 0b01 ∧ Stage2.effPs c s.vtcrEl2 = 0b110 ∧
      ¬ (c.haveLpa = true ∧ Vtcr.effTg0 c s.vtcrEl2 = .k64)) ∧
    (stage2Attempt c s = .level0TranslationFault ↔ Vtcr.sh0 s.vtcrEl2 ≠ 0b01 ∧
      Stage2.outputBits c s.vtcrEl2 ≠ none ∧ Stage2.level0Fault c s.vtcrEl2 = true)

/-- R165: while EL2 is enabled, a value that meets (a) to (e) makes a translation neither refused nor faulting: it goes
on under a view with an output size, a walk shareability, a numbered start level and the programmed granule. -/
def Obligations.AUsableValueConfiguresTranslation : Prop :=
  ∀ (c : Config) (s : State), c.haveEl2 = true → s.el2Enabled = true → Usable c s.vtcrEl2 →
    ∃ view, stage2Attempt c s = .configured view ∧ view.outputBits.isSome = true ∧ view.walkShare.isSome = true ∧
      view.startLevel ≠ .reserved ∧ Vtcr.granuleOf (Vtcr.tg0 s.vtcrEl2) = some view.granule

/-- R120, R61: no instruction but an MSR at EL2 or EL3 changes what the register sets for stage 2 translation, or what
the spec says of an attempted one. -/
def Obligations.OnlyAnMsrChangesTheStage2Configuration : Prop :=
  ∀ (i : Instr) (s t : State) (c : Config), exec i s = .next t →
    (∀ n, i = .msrVtcrEl2 n → ¬ AtEl2OrEl3 s) → stage2Config c t = stage2Config c s ∧ stage2Attempt c t = stage2Attempt c s

/-- R65: the components of the configuration that have a value of their own, each as the rule named beside it gives it
for the stored value: RegionSize (R62), OutputBits (R64), Granule (R70), StartLevel by the granule in effect and SL0
(R75), Level0Fault (R78). -/
def Obligations.TheComponentsOfTheConfiguration : Prop :=
  ∀ (c : Config) (s : State) (k : Stage2Config), stage2Config c s = some k →
    k.regionSize = 2 ^ (64 - s.vtcrEl2.toNat % 64) ∧ k.outputBits = Stage2.outputBits c s.vtcrEl2 ∧
    k.granule = Vtcr.effTg0 c s.vtcrEl2 ∧
    k.startLevel = Stage2.startLevelOf c (Vtcr.effTg0 c s.vtcrEl2) (s.vtcrEl2.extractLsb' 6 2) ∧
    (k.level0Fault = true ↔ k.startLevel = .reserved ∨
      c.sl0T0szConsistent (Vtcr.effTg0 c s.vtcrEl2) (s.vtcrEl2.extractLsb' 6 2) (s.vtcrEl2.extractLsb' 0 6) = false)

/-- R43: a reserved bit, stored or not, has no effect but its read-back: two values that agree in every bit that is RW
set the same configuration and VMID size, and an attempted translation meets the same. -/
def Obligations.ReservedBitsHaveNoEffect : Prop :=
  ∀ (c : Config) (s : State) (v : Word64),
    (∀ b, b < 64 → Vtcr.kind c b = .rw → v.getLsbD b = s.vtcrEl2.getLsbD b) →
    stage2Config c (s.setVtcr v) = stage2Config c s ∧ Stage2.vmidBits c (s.setVtcr v) = Stage2.vmidBits c s ∧
    stage2Attempt c (s.setVtcr v) = stage2Attempt c s
end

