-- ==== Sys2Proof/Laws/Decode.lean ====
section
/-! SUPPORT. Words, bytes and fields. -/

namespace Sys2Proof

/-- The four bytes of a word, put together again, are the word (R111). -/
theorem wordOfBytes_bytes (w : InstrWord) :
    wordOfBytes (w.extractLsb' 0 8) (w.extractLsb' 8 8) (w.extractLsb' 16 8) (w.extractLsb' 24 8) = w := by
  refine BitVec.eq_of_getLsbD_eq fun n hn => ?_
  simp only [wordOfBytes, BitVec.getLsbD_append, BitVec.getLsbD_extractLsb']
  split
  · simp [*]
  · split
    · simp [*, show 8 + (n - 8) = n by omega]
    · split
      · simp [*, show 16 + (n - 8 - 8) = n by omega]
      · simp [show 24 + (n - 8 - 8 - 8) = n by omega, show n - 8 - 8 - 8 < 8 by omega]

/-- Decoding the bytes of a word is decoding the word. -/
theorem decodeBytes_bytesOfWord (w : InstrWord) (rest : List Byte) :
    decodeBytes (bytesOfWord w ++ rest) =
      match decodeWord w with
      | .ok i    => .ok (i, rest)
      | .error e => .error e := by
  show (match decodeWord (wordOfBytes _ _ _ _) with
    | .ok i    => Except.ok (i, rest)
    | .error e => .error e) = _
  rw [wordOfBytes_bytes]

@[simp] theorem bytesOfWord_length (w : InstrWord) : (bytesOfWord w).length = 4 := rfl

/-- The fields of the word of a move are the move (R104). -/
theorem sysMoveOfWord_word (m : SysMove) : sysMoveOfWord m.word = some m := by
  obtain ⟨read, o0, op1, crn, crm, op2, rt⟩ := m
  have low := @BitVec.extractLsb'_append_eq_of_add_le
  have high := @BitVec.extractLsb'_append_eq_of_le
  cases read <;> simp (disch := omega) [sysMoveOfWord, SysMove.word, low, high]

/-- No instruction is ill formed: its operand is 5 bits wide and unrestricted (R105). -/
theorem Instr.wellFormed_eq_true (i : Instr) : i.wellFormed = true := by
  cases i <;> simp [Instr.wellFormed, SysMove.wellFormed, SysMove.op0, Instr.toSysMove]

/-- Decoding goes wrong only in naming the word. -/
theorem decodeWord_error {w : InstrWord} {e : DecodeError} (h : decodeWord w = .error e) : e = .unknownWord w := by
  unfold decodeWord at h
  split at h
  · cases h
  · exact (Except.error.inj h).symm

end Sys2Proof
end

