-- ==== Sys2Proof/Laws/Memory.lean ====
section
/-! SUPPORT. Memory: reads after writes, the canonical form, and the bytes of the NVMem slot. -/

namespace Sys2Proof.Machine

/-! ### One byte -/

theorem Memory.read_write_same (m : Memory) (k : Nat) (v : Byte) : (m.write k v).read k = some v := by
  induction m with
  | nil => simp [Memory.write, Memory.read]
  | cons c m ih =>
    obtain ⟨a, b⟩ := c
    unfold Memory.write
    split
    · simp [Memory.read]
    · split
      · simp [Memory.read]
      · have : a ≠ k := by omega
        simp [Memory.read, this, ih]

theorem Memory.read_write_other (m : Memory) {k j : Nat} (v : Byte) (h : j ≠ k) :
    (m.write k v).read j = m.read j := by
  induction m with
  | nil => simp [Memory.write, Memory.read, h.symm]
  | cons c m ih =>
    obtain ⟨a, b⟩ := c
    unfold Memory.write
    split
    · simp [Memory.read, h.symm]
    · split
      · rename_i h2
        subst h2
        simp [Memory.read, h.symm]
      · simp [Memory.read, ih]

/-- What a byte write leaves: the written byte there, every other byte as it was. -/
theorem Memory.read_write (m : Memory) (k j : Nat) (v : Byte) :
    (m.write k v).read j = if j = k then some v else m.read j := by
  split
  · rename_i h
    rw [h, Memory.read_write_same]
  · rename_i h
    rw [Memory.read_write_other m v h]

theorem Memory.mem_write {m : Memory} {k : Nat} {v : Byte} {c : Host.Cell} (h : c ∈ m.write k v) :
    c = (k, v) ∨ c ∈ m := by
  induction m with
  | nil => exact .inl (by simpa [Memory.write] using h)
  | cons d m ih =>
    obtain ⟨a, b⟩ := d
    unfold Memory.write at h
    split at h
    · simpa using h
    · split at h
      · rcases List.mem_cons.mp h with h | h
        · exact .inl h
        · exact .inr (List.mem_cons_of_mem _ h)
      · rcases List.mem_cons.mp h with h | h
        · exact .inr (h ▸ List.mem_cons_self)
        · exact (ih h).imp_right (List.mem_cons_of_mem _)

/-- A byte write inside the address space keeps the canonical form. -/
theorem Memory.wf_write {m : Memory} {k : Nat} (v : Byte) (h : m.wf) (hk : k < 2 ^ 64) : (m.write k v).wf := by
  refine ⟨?_, fun c hc => ?_⟩
  · obtain ⟨sorted, -⟩ := h
    induction m with
    | nil => exact List.pairwise_singleton ..
    | cons c m ih =>
      obtain ⟨a, b⟩ := c
      obtain ⟨below, rest⟩ := List.pairwise_cons.mp sorted
      unfold Memory.write
      split
      · rename_i lt
        refine List.pairwise_cons.mpr ⟨fun d hd => ?_, sorted⟩
        rcases List.mem_cons.mp hd with rfl | hd
        · exact lt
        · exact lt.trans (below d hd)
      · split
        · rename_i eq
          exact List.pairwise_cons.mpr ⟨fun d hd => eq ▸ below d hd, rest⟩
        · refine List.pairwise_cons.mpr ⟨fun d hd => ?_, ih rest⟩
          rcases Memory.mem_write hd with rfl | hd
          · show a < k
            omega
          · exact below d hd
  · rcases Memory.mem_write hc with rfl | hc
    · exact hk
    · exact h.2 c hc

/-! ### Several bytes -/

/-- A read of `n` bytes succeeds exactly with the bytes each address holds. -/
theorem Memory.readBytes_eq_some {m : Memory} {k n : Nat} {bs : List Byte} :
    m.readBytes k n = some bs ↔ bs.length = n ∧ ∀ i (h : i < bs.length), m.read (k + i) = some bs[i] := by
  induction n generalizing k bs with
  | zero =>
    constructor
    · rintro ⟨⟩
      simp
    · rintro ⟨h, -⟩
      rw [List.length_eq_zero_iff.mp h]
      rfl
  | succ n ih =>
    constructor
    · intro h
      unfold Memory.readBytes at h
      split at h
      · rename_i b cs hb hcs
        cases h
        obtain ⟨len, all⟩ := ih.mp hcs
        refine ⟨by simp [len], fun i hi => ?_⟩
        cases i with
        | zero => simpa using hb
        | succ i =>
          have := all i (by simpa using hi)
          rw [Nat.add_right_comm] at this
          simpa [Nat.add_assoc] using this
      · cases h
    · rintro ⟨len, all⟩
      cases bs with
      | nil => simp at len
      | cons b cs =>
        have hb : m.read k = some b := all 0 (Nat.succ_pos _)
        have hcs : m.readBytes (k + 1) n = some cs := ih.mpr ⟨by simpa using len, fun i hi => by
          have := all (i + 1) (by simpa using hi)
          rw [Nat.add_right_comm]
          simpa [Nat.add_assoc] using this⟩
        simp [Memory.readBytes, hb, hcs]

/-- A read of `n` bytes fails exactly when one of them is absent. -/
theorem Memory.readBytes_eq_none {m : Memory} {k n : Nat} :
    m.readBytes k n = none ↔ ∃ i, i < n ∧ m.read (k + i) = none := by
  induction n generalizing k with
  | zero => simp [Memory.readBytes]
  | succ n ih =>
    unfold Memory.readBytes
    constructor
    · intro h
      cases hb : m.read k with
      | none => exact ⟨0, by omega, by simpa using hb⟩
      | some b =>
        cases hcs : m.readBytes (k + 1) n with
        | none =>
          obtain ⟨i, hi, none⟩ := ih.mp hcs
          exact ⟨i + 1, by omega, by rw [← none]; congr 1; omega⟩
        | some cs => simp [hb, hcs] at h
    · rintro ⟨i, hi, none⟩
      cases i with
      | zero =>
        rw [Nat.add_zero] at none
        simp [none]
      | succ i =>
        have : m.readBytes (k + 1) n = Option.none :=
          ih.mpr ⟨i, by omega, by rw [← none]; congr 1; omega⟩
        simp [this]

/-- What a write of several bytes leaves: each byte at its address, every other byte as it was. -/
theorem Memory.read_writeBytes (m : Memory) (k : Nat) (bs : List Byte) (j : Nat) :
    (m.writeBytes k bs).read j = if h : k ≤ j ∧ j < k + bs.length then some (bs[j - k]'(by omega)) else m.read j := by
  induction bs generalizing m k with
  | nil =>
    rw [dif_neg (by simp only [List.length_nil]; omega)]
    rfl
  | cons b bs ih =>
    unfold Memory.writeBytes
    rw [ih, Memory.read_write]
    simp only [List.length_cons]
    by_cases hj : j = k
    · subst hj
      rw [dif_neg (by omega), if_pos rfl, dif_pos (by omega)]
      simp
    · rw [if_neg hj]
      by_cases h : k + 1 ≤ j ∧ j < k + 1 + bs.length
      · rw [dif_pos h, dif_pos (by omega)]
        simp [show j - k = (j - (k + 1)) + 1 by omega]
      · rw [dif_neg h, dif_neg (by omega)]

theorem Memory.wf_writeBytes {m : Memory} {k : Nat} (bs : List Byte) (h : m.wf) (hk : k + bs.length ≤ 2 ^ 64) :
    (m.writeBytes k bs).wf := by
  induction bs generalizing m k with
  | nil => exact h
  | cons b bs ih =>
    simp only [List.length_cons] at hk
    exact ih (Memory.wf_write b h (by omega)) (by omega)

/-! ### The slot (R86) -/

@[simp] theorem slotBytes_length (big : Bool) (v : Word64) : (slotBytes big v).length = 8 := by
  simp [slotBytes]

theorem slotBytes_getElem (big : Bool) (v : Word64) (i : Nat) (h : i < (slotBytes big v).length) :
    (slotBytes big v)[i] = slotByte big v i := by
  simp [slotBytes]

theorem extract_shiftLeft_or_high (v : Word64) (b : Byte) (k : Nat) (h : 0 < k) (hk : k < 8) :
    ((v <<< 8) ||| b.setWidth 64).extractLsb' (8 * k) 8 = v.extractLsb' (8 * (k - 1)) 8 := by
  ext j hj
  have e : 8 * (k - 1) + j = 8 * k + j - 8 := by omega
  simp (disch := omega) [e]
  omega

theorem extract_setWidth (b : Byte) : (b.setWidth 64 : Word64).extractLsb' 0 8 = b := by
  ext j hj
  simp only [BitVec.getElem_extractLsb', Nat.zero_add, BitVec.getLsbD_setWidth, BitVec.getLsbD_eq_getElem hj]
  simp [show j < 64 by omega]

theorem extract_shiftLeft_or_low (v : Word64) (b : Byte) :
    ((v <<< 8) ||| b.setWidth 64).extractLsb' 0 8 = b := by
  rw [← extract_setWidth b]
  ext j hj
  simp [hj]

/-- Eight bytes are the bytes of the value they hold (R86). -/
theorem slotBytes_slotValue (big : Bool) (bs : List Byte) (h : bs.length = 8) :
    slotBytes big (slotValue big bs) = bs := by
  match bs, h with
  | [b0, b1, b2, b3, b4, b5, b6, b7], _ =>
    have high := extract_shiftLeft_or_high
    cases big <;>
      simp [slotBytes, slotByte, slotValue, valueOfBytes, List.range, List.range.loop, extract_setWidth,
        extract_shiftLeft_or_low, high _ _ 1, high _ _ 2, high _ _ 3, high _ _ 4, high _ _ 5, high _ _ 6, high _ _ 7]

/-- A value is determined by its eight bytes (R86). -/
theorem slotByte_ext (big : Bool) {v w : Word64} (h : ∀ i, i < 8 → slotByte big v i = slotByte big w i) : v = w := by
  ext n hn
  cases big
  · have := congrArg (fun b : Byte => b.getLsbD (n % 8)) (h (n / 8) (by omega))
    simp only [slotByte, Bool.false_eq_true, if_false, BitVec.getLsbD_extractLsb'] at this
    simpa [show n % 8 < 8 by omega, Nat.div_add_mod, BitVec.getLsbD_eq_getElem hn] using this
  · have := congrArg (fun b : Byte => b.getLsbD (n % 8)) (h (7 - n / 8) (by omega))
    simp only [slotByte, if_true, BitVec.getLsbD_extractLsb',
      show 56 - 8 * (7 - n / 8) + n % 8 = n by omega] at this
    simpa [show n % 8 < 8 by omega, BitVec.getLsbD_eq_getElem hn] using this

/-- The value read back from the bytes of a value is that value, whatever the byte order (R86, R126). -/
theorem slotValue_slotBytes (big : Bool) (v : Word64) : slotValue big (slotBytes big v) = v := by
  refine slotByte_ext big fun i hi => ?_
  have := slotBytes_slotValue big (slotBytes big v) (by simp [slotBytes])
  have := congrArg (fun bs : List Byte => bs[i]?) this
  simpa [slotBytes, hi] using this

end Sys2Proof.Machine
end

