-- ==== Sys2Proof/Laws/State.lean ====
section
/-! SUPPORT. One lemma per field per update of the state, so that no proof unfolds a record update. -/

namespace Sys2Proof.Machine

@[simp] theorem State.setPc_vtcrEl2 (s : State) (pc : Word64) : (s.setPc pc).vtcrEl2 = s.vtcrEl2 := rfl
@[simp] theorem State.setPc_x (s : State) (pc : Word64) : (s.setPc pc).x = s.x := rfl
@[simp] theorem State.setPc_pc (s : State) (pc : Word64) : (s.setPc pc).pc = pc := rfl
@[simp] theorem State.setPc_el (s : State) (pc : Word64) : (s.setPc pc).el = s.el := rfl
@[simp] theorem State.setPc_securityState (s : State) (pc : Word64) : (s.setPc pc).securityState = s.securityState := rfl
@[simp] theorem State.setPc_el2Enabled (s : State) (pc : Word64) : (s.setPc pc).el2Enabled = s.el2Enabled := rfl
@[simp] theorem State.setPc_hcrNv (s : State) (pc : Word64) : (s.setPc pc).hcrNv = s.hcrNv := rfl
@[simp] theorem State.setPc_hcrNv2 (s : State) (pc : Word64) : (s.setPc pc).hcrNv2 = s.hcrNv2 := rfl
@[simp] theorem State.setPc_vstcrSa (s : State) (pc : Word64) : (s.setPc pc).vstcrSa = s.vstcrSa := rfl
@[simp] theorem State.setPc_vttbrEl2 (s : State) (pc : Word64) : (s.setPc pc).vttbrEl2 = s.vttbrEl2 := rfl
@[simp] theorem State.setPc_vsttbrEl2 (s : State) (pc : Word64) : (s.setPc pc).vsttbrEl2 = s.vsttbrEl2 := rfl
@[simp] theorem State.setPc_mem (s : State) (pc : Word64) : (s.setPc pc).mem = s.mem := rfl
@[simp] theorem State.setPc_text (s : State) (pc : Word64) : (s.setPc pc).text = s.text := rfl

@[simp] theorem State.setVtcr_vtcrEl2 (s : State) (v : Word64) : (s.setVtcr v).vtcrEl2 = v := rfl
@[simp] theorem State.setVtcr_x (s : State) (v : Word64) : (s.setVtcr v).x = s.x := rfl
@[simp] theorem State.setVtcr_pc (s : State) (v : Word64) : (s.setVtcr v).pc = s.pc := rfl
@[simp] theorem State.setVtcr_el (s : State) (v : Word64) : (s.setVtcr v).el = s.el := rfl
@[simp] theorem State.setVtcr_securityState (s : State) (v : Word64) : (s.setVtcr v).securityState = s.securityState := rfl
@[simp] theorem State.setVtcr_el2Enabled (s : State) (v : Word64) : (s.setVtcr v).el2Enabled = s.el2Enabled := rfl
@[simp] theorem State.setVtcr_hcrNv (s : State) (v : Word64) : (s.setVtcr v).hcrNv = s.hcrNv := rfl
@[simp] theorem State.setVtcr_hcrNv2 (s : State) (v : Word64) : (s.setVtcr v).hcrNv2 = s.hcrNv2 := rfl
@[simp] theorem State.setVtcr_vstcrSa (s : State) (v : Word64) : (s.setVtcr v).vstcrSa = s.vstcrSa := rfl
@[simp] theorem State.setVtcr_vttbrEl2 (s : State) (v : Word64) : (s.setVtcr v).vttbrEl2 = s.vttbrEl2 := rfl
@[simp] theorem State.setVtcr_vsttbrEl2 (s : State) (v : Word64) : (s.setVtcr v).vsttbrEl2 = s.vsttbrEl2 := rfl
@[simp] theorem State.setVtcr_mem (s : State) (v : Word64) : (s.setVtcr v).mem = s.mem := rfl
@[simp] theorem State.setVtcr_text (s : State) (v : Word64) : (s.setVtcr v).text = s.text := rfl

@[simp] theorem State.setMem_vtcrEl2 (s : State) (m : Memory) : (s.setMem m).vtcrEl2 = s.vtcrEl2 := rfl
@[simp] theorem State.setMem_x (s : State) (m : Memory) : (s.setMem m).x = s.x := rfl
@[simp] theorem State.setMem_pc (s : State) (m : Memory) : (s.setMem m).pc = s.pc := rfl
@[simp] theorem State.setMem_el (s : State) (m : Memory) : (s.setMem m).el = s.el := rfl
@[simp] theorem State.setMem_securityState (s : State) (m : Memory) : (s.setMem m).securityState = s.securityState := rfl
@[simp] theorem State.setMem_el2Enabled (s : State) (m : Memory) : (s.setMem m).el2Enabled = s.el2Enabled := rfl
@[simp] theorem State.setMem_hcrNv (s : State) (m : Memory) : (s.setMem m).hcrNv = s.hcrNv := rfl
@[simp] theorem State.setMem_hcrNv2 (s : State) (m : Memory) : (s.setMem m).hcrNv2 = s.hcrNv2 := rfl
@[simp] theorem State.setMem_vstcrSa (s : State) (m : Memory) : (s.setMem m).vstcrSa = s.vstcrSa := rfl
@[simp] theorem State.setMem_vttbrEl2 (s : State) (m : Memory) : (s.setMem m).vttbrEl2 = s.vttbrEl2 := rfl
@[simp] theorem State.setMem_vsttbrEl2 (s : State) (m : Memory) : (s.setMem m).vsttbrEl2 = s.vsttbrEl2 := rfl
@[simp] theorem State.setMem_mem (s : State) (m : Memory) : (s.setMem m).mem = m := rfl
@[simp] theorem State.setMem_text (s : State) (m : Memory) : (s.setMem m).text = s.text := rfl

@[simp] theorem State.setText_vtcrEl2 (s : State) (m : Memory) : (s.setText m).vtcrEl2 = s.vtcrEl2 := rfl
@[simp] theorem State.setText_x (s : State) (m : Memory) : (s.setText m).x = s.x := rfl
@[simp] theorem State.setText_pc (s : State) (m : Memory) : (s.setText m).pc = s.pc := rfl
@[simp] theorem State.setText_el (s : State) (m : Memory) : (s.setText m).el = s.el := rfl
@[simp] theorem State.setText_securityState (s : State) (m : Memory) : (s.setText m).securityState = s.securityState := rfl
@[simp] theorem State.setText_el2Enabled (s : State) (m : Memory) : (s.setText m).el2Enabled = s.el2Enabled := rfl
@[simp] theorem State.setText_hcrNv (s : State) (m : Memory) : (s.setText m).hcrNv = s.hcrNv := rfl
@[simp] theorem State.setText_hcrNv2 (s : State) (m : Memory) : (s.setText m).hcrNv2 = s.hcrNv2 := rfl
@[simp] theorem State.setText_vstcrSa (s : State) (m : Memory) : (s.setText m).vstcrSa = s.vstcrSa := rfl
@[simp] theorem State.setText_vttbrEl2 (s : State) (m : Memory) : (s.setText m).vttbrEl2 = s.vttbrEl2 := rfl
@[simp] theorem State.setText_vsttbrEl2 (s : State) (m : Memory) : (s.setText m).vsttbrEl2 = s.vsttbrEl2 := rfl
@[simp] theorem State.setText_mem (s : State) (m : Memory) : (s.setText m).mem = s.mem := rfl
@[simp] theorem State.setText_text (s : State) (m : Memory) : (s.setText m).text = m := rfl

@[simp] theorem State.writeX_vtcrEl2 (s : State) (t : BitVec 5) (v : Word64) : (s.writeX t v).vtcrEl2 = s.vtcrEl2 := by
  unfold State.writeX; split <;> rfl
@[simp] theorem State.writeX_pc (s : State) (t : BitVec 5) (v : Word64) : (s.writeX t v).pc = s.pc := by
  unfold State.writeX; split <;> rfl
@[simp] theorem State.writeX_el (s : State) (t : BitVec 5) (v : Word64) : (s.writeX t v).el = s.el := by
  unfold State.writeX; split <;> rfl
@[simp] theorem State.writeX_securityState (s : State) (t : BitVec 5) (v : Word64) : (s.writeX t v).securityState = s.securityState := by
  unfold State.writeX; split <;> rfl
@[simp] theorem State.writeX_el2Enabled (s : State) (t : BitVec 5) (v : Word64) : (s.writeX t v).el2Enabled = s.el2Enabled := by
  unfold State.writeX; split <;> rfl
@[simp] theorem State.writeX_hcrNv (s : State) (t : BitVec 5) (v : Word64) : (s.writeX t v).hcrNv = s.hcrNv := by
  unfold State.writeX; split <;> rfl
@[simp] theorem State.writeX_hcrNv2 (s : State) (t : BitVec 5) (v : Word64) : (s.writeX t v).hcrNv2 = s.hcrNv2 := by
  unfold State.writeX; split <;> rfl
@[simp] theorem State.writeX_vstcrSa (s : State) (t : BitVec 5) (v : Word64) : (s.writeX t v).vstcrSa = s.vstcrSa := by
  unfold State.writeX; split <;> rfl
@[simp] theorem State.writeX_vttbrEl2 (s : State) (t : BitVec 5) (v : Word64) : (s.writeX t v).vttbrEl2 = s.vttbrEl2 := by
  unfold State.writeX; split <;> rfl
@[simp] theorem State.writeX_vsttbrEl2 (s : State) (t : BitVec 5) (v : Word64) : (s.writeX t v).vsttbrEl2 = s.vsttbrEl2 := by
  unfold State.writeX; split <;> rfl
@[simp] theorem State.writeX_mem (s : State) (t : BitVec 5) (v : Word64) : (s.writeX t v).mem = s.mem := by
  unfold State.writeX; split <;> rfl
@[simp] theorem State.writeX_text (s : State) (t : BitVec 5) (v : Word64) : (s.writeX t v).text = s.text := by
  unfold State.writeX; split <;> rfl

/-! ### General registers -/

/-- A write to number 31 is discarded (R50). -/
@[simp] theorem State.writeX_zero (s : State) (v : Word64) : s.writeX 31#5 v = s := rfl

/-- Number 31 reads as zero (R50). -/
@[simp] theorem State.readX_zero (s : State) : s.readX 31#5 = 0 := rfl

@[simp] theorem State.readX_setPc (s : State) (pc : Word64) (t : BitVec 5) : (s.setPc pc).readX t = s.readX t := rfl
@[simp] theorem State.readX_setVtcr (s : State) (v : Word64) (t : BitVec 5) : (s.setVtcr v).readX t = s.readX t := rfl
@[simp] theorem State.readX_setMem (s : State) (m : Memory) (t : BitVec 5) : (s.setMem m).readX t = s.readX t := rfl
@[simp] theorem State.readX_setText (s : State) (m : Memory) (t : BitVec 5) : (s.setText m).readX t = s.readX t := rfl

/-- Reading after writing: the written register has the value, unless it is the zero register; the others keep theirs. -/
theorem State.readX_writeX (s : State) (t u : BitVec 5) (v : Word64) :
    (s.writeX t v).readX u = if u = t ∧ u ≠ 31 then v else s.readX u := by
  have key : u = t ↔ u.toNat = t.toNat := BitVec.toNat_inj.symm
  have zero : u = 31 ↔ u.toNat = 31 := BitVec.toNat_inj.symm
  simp only [key, ne_eq, zero]
  unfold State.writeX
  by_cases ht : t.toNat < 31
  · simp only [dif_pos ht, State.readX]
    by_cases hu : u.toNat < 31
    · simp only [dif_pos hu, Vector.getElem_set]
      split <;> split <;> first | rfl | omega
    · simp only [dif_neg hu]
      split
      · omega
      · rfl
  · simp only [dif_neg ht]
    split
    · omega
    · rfl

end Sys2Proof.Machine
end

