-- ==== Sys2Proof/Laws/Access.lean ====
section
/-! SUPPORT. What each shared operation can do, said once: completing, raising, reaching the NVMem slot, the two
instructions, a step. -/

namespace Sys2Proof.Machine

open Sys2Proof.Safety

/-! ### Completing and sequencing -/

/-- Completing answers a next state exactly when the PC does not pass the top, and only advances the PC (R51, R123). -/
theorem complete_eq_next {s t : State} :
    complete s = .next t ↔ s.pc.toNat + 4 < 2 ^ 64 ∧ t = s.setPc (s.pc + 4) := by
  unfold complete
  split
  · rename_i h
    exact ⟨fun e => ⟨h, (Host.Outcome.next.inj e).symm⟩, fun e => by rw [e.2]⟩
  · rename_i h
    exact ⟨nofun, fun e => absurd e.1 h⟩

theorem andThen_eq_next {α β : Type} {r : Result α} {f : α → Result β} {b : β} :
    r.andThen f = .next b ↔ ∃ a, r = .next a ∧ f a = .next b := by
  cases r with
  | next a => exact ⟨fun h => ⟨a, rfl, h⟩, fun ⟨_, e, h⟩ => by cases e; exact h⟩
  | fault e => exact ⟨nofun, fun ⟨_, e, _⟩ => nomatch e⟩
  | refused e => exact ⟨nofun, fun ⟨_, e, _⟩ => nomatch e⟩

/-- Taking an exception never goes on (R136). -/
theorem takeException_ne_next {α : Type} (e : Exception) (w : InstrWord) (s : State) (a : α) :
    takeException e w s ≠ .next a := by
  cases e <;> exact fun h => nomatch h

/-- Completing with room for the next instruction. -/
theorem complete_of_room {s : State} (h : PcHasRoom s) : complete s = .next (s.setPc (s.pc + 4)) := if_pos h

/-! ### The arm a state selects (R122) -/

theorem route_eq_register {s : State} : route s = .register ↔ AtEl2OrEl3 s := by
  unfold route AtEl2OrEl3
  cases s.el <;> simp
  cases s.el2Enabled <;> cases s.hcrNv2 <;> cases s.hcrNv <;> simp

theorem route_eq_nvmem {s : State} : route s = .nvmem ↔ Redirected s := by
  unfold route Redirected
  cases s.el <;> simp
  cases s.el2Enabled <;> cases s.hcrNv2 <;> cases s.hcrNv <;> simp

theorem route_eq_trapToEl2 {s : State} :
    route s = .trapToEl2 ↔ s.el = .el1 ∧ s.el2Enabled = true ∧ s.hcrNv = true ∧ s.hcrNv2 = false := by
  unfold route
  cases s.el <;> simp
  cases s.el2Enabled <;> cases s.hcrNv2 <;> cases s.hcrNv <;> simp

theorem route_eq_undefinedAccess {s : State} :
    route s = .undefinedAccess ↔ s.el = .el0 ∨ (s.el = .el1 ∧ ¬ (s.el2Enabled = true ∧ s.hcrNv = true)) := by
  unfold route
  cases s.el <;> simp
  cases s.el2Enabled <;> cases s.hcrNv2 <;> cases s.hcrNv <;> simp

/-! ### The slot -/

theorem textOverlapsSlot_eq_false {c : Config} {s : State} :
    textOverlapsSlot c s = false ↔
      ∀ cell ∈ s.text, ¬ (slotAddress c ≤ cell.1 ∧ cell.1 < slotAddress c + 8) := by
  simp only [textOverlapsSlot, List.any_eq_false, Bool.and_eq_true, decide_eq_true_eq]

/-- The slot's bytes are there exactly when the access is admitted (R93, R133). -/
theorem slotContents_eq_next {c : Config} {s : State} {bs : List Byte} :
    slotContents c s = .next bs ↔
      textOverlapsSlot c s = false ∧ s.mem.readBytes (slotAddress c) 8 = some bs := by
  unfold slotContents
  split
  · rename_i h
    exact ⟨nofun, fun e => absurd e.1 (by simp [h])⟩
  · rename_i h
    have h : textOverlapsSlot c s = false := by simpa using h
    split
    · rename_i h2
      exact ⟨nofun, fun e => absurd e.2 (by simp [h2])⟩
    · rename_i bs' h2
      exact ⟨fun e => ⟨h, Host.Outcome.next.inj e ▸ h2⟩, fun e => by rw [h2] at e; cases e.2; rfl⟩

/-- Everything reaching the slot can answer. -/
theorem slotContents_cases (c : Config) (s : State) :
    (∃ bs, slotContents c s = .next bs) ∨ slotContents c s = .fault (.nvmemAbsent (slotAddress c)) ∨
      slotContents c s = .refused (.textOverlapsNvmem (slotAddress c)) := by
  unfold slotContents
  split
  · exact .inr (.inr rfl)
  · split
    · exact .inr (.inl rfl)
    · exact .inl ⟨_, rfl⟩

/-- An admitted access finds eight bytes. -/
theorem slotContents_of_admitted {c : Config} {s : State} (h : NvmemAdmitted c s) :
    ∃ bs, slotContents c s = .next bs ∧ bs.length = 8 ∧
      ∀ i (hi : i < bs.length), s.mem.read (slotAddress c + i) = some bs[i] := by
  cases e : s.mem.readBytes (slotAddress c) 8 with
  | none =>
    obtain ⟨i, hi, none⟩ := Memory.readBytes_eq_none.mp e
    have := h.2 i hi
    simp [none] at this
  | some bs =>
    exact ⟨bs, slotContents_eq_next.mpr ⟨textOverlapsSlot_eq_false.mpr h.1, e⟩, Memory.readBytes_eq_some.mp e⟩

/-- A read of the slot answers the value its bytes hold (R85, R86). -/
theorem readNvmem_eq_next {c : Config} {s : State} {v : Word64} :
    readNvmem c s = .next v ↔
      textOverlapsSlot c s = false ∧
      ∃ bs, s.mem.readBytes (slotAddress c) 8 = some bs ∧ v = slotValue c.nvmemBigEndian bs := by
  simp only [readNvmem, andThen_eq_next, slotContents_eq_next]
  constructor
  · rintro ⟨bs, ⟨h1, h2⟩, h3⟩
    cases h3
    exact ⟨h1, bs, h2, rfl⟩
  · rintro ⟨h1, bs, h2, rfl⟩
    exact ⟨bs, ⟨h1, h2⟩, rfl⟩

/-- A write of the slot changes its eight bytes and nothing else (R85, R86). -/
theorem writeNvmem_eq_next {c : Config} {s t : State} {v : Word64} :
    writeNvmem c v s = .next t ↔
      textOverlapsSlot c s = false ∧ (s.mem.readBytes (slotAddress c) 8).isSome ∧
      t = s.setMem (s.mem.writeBytes (slotAddress c) (slotBytes c.nvmemBigEndian v)) := by
  simp only [writeNvmem, andThen_eq_next, slotContents_eq_next]
  constructor
  · rintro ⟨bs, ⟨h1, h2⟩, h3⟩
    cases h3
    exact ⟨h1, by simp [h2], rfl⟩
  · rintro ⟨h1, h2, rfl⟩
    obtain ⟨bs, h2⟩ := Option.isSome_iff_exists.mp h2
    exact ⟨bs, ⟨h1, h2⟩, rfl⟩

/-- Memory after a write of the slot: the eight bytes of the value there, every other byte as it was. -/
theorem read_writeBytes_slot (m : Memory) (k : Nat) (big : Bool) (v : Word64) (a : Nat) :
    (m.writeBytes k (slotBytes big v)).read a =
      if k ≤ a ∧ a < k + 8 then some (slotByte big v (a - k)) else m.read a := by
  rw [Memory.read_writeBytes]
  simp only [slotBytes_length]
  split
  · rw [slotBytes_getElem]
  · rfl

/-- The slot is inside the address space (R124). -/
theorem slotAddress_inside (c : Config) : slotAddress c + 8 ≤ 2 ^ 64 := by
  have := c.nvmemBase_inside
  unfold slotAddress
  omega

/-! ### The two instructions -/

/-- Everything an MRS that goes on can have done (R120). -/
theorem execMrsVtcrEl2On_next {c : Config} {n : BitVec 5} {s t : State} (h : execMrsVtcrEl2On c n s = .next t) :
    s.pc.toNat + 4 < 2 ^ 64 ∧
    ((route s = .register ∧ t = (s.writeX n (Vtcr.read c s.vtcrEl2)).setPc (s.pc + 4)) ∨
     (route s = .nvmem ∧ textOverlapsSlot c s = false ∧
      ∃ bs, s.mem.readBytes (slotAddress c) 8 = some bs ∧
        t = (s.writeX n (slotValue c.nvmemBigEndian bs)).setPc (s.pc + 4))) := by
  unfold execMrsVtcrEl2On at h
  split at h
  · exact (takeException_ne_next _ _ _ _ h).elim
  · exact (takeException_ne_next _ _ _ _ h).elim
  · rename_i r
    obtain ⟨v, hv, hc⟩ := andThen_eq_next.mp h
    obtain ⟨free, bs, hbs, rfl⟩ := readNvmem_eq_next.mp hv
    obtain ⟨hp, rfl⟩ := complete_eq_next.mp hc
    exact ⟨by simpa using hp, .inr ⟨r, free, bs, hbs, by simp⟩⟩
  · rename_i r
    obtain ⟨hp, rfl⟩ := complete_eq_next.mp h
    exact ⟨by simpa using hp, .inl ⟨r, by simp⟩⟩

/-- Everything an MSR that goes on can have done (R121). -/
theorem execMsrVtcrEl2On_next {c : Config} {n : BitVec 5} {s t : State} (h : execMsrVtcrEl2On c n s = .next t) :
    s.pc.toNat + 4 < 2 ^ 64 ∧
    ((route s = .register ∧ t = (s.setVtcr (Vtcr.write c s.vtcrEl2 (s.readX n))).setPc (s.pc + 4)) ∨
     (route s = .nvmem ∧ textOverlapsSlot c s = false ∧ (s.mem.readBytes (slotAddress c) 8).isSome ∧
      t = (s.setMem (s.mem.writeBytes (slotAddress c) (slotBytes c.nvmemBigEndian (s.readX n)))).setPc (s.pc + 4))) := by
  unfold execMsrVtcrEl2On at h
  split at h
  · exact (takeException_ne_next _ _ _ _ h).elim
  · exact (takeException_ne_next _ _ _ _ h).elim
  · rename_i r
    obtain ⟨v, hv, hc⟩ := andThen_eq_next.mp h
    obtain ⟨free, held, rfl⟩ := writeNvmem_eq_next.mp hv
    obtain ⟨hp, rfl⟩ := complete_eq_next.mp hc
    exact ⟨hp, .inr ⟨r, free, held, rfl⟩⟩
  · rename_i r
    obtain ⟨hp, rfl⟩ := complete_eq_next.mp h
    exact ⟨hp, .inl ⟨r, rfl⟩⟩

/-! ### A step -/

/-- A step that goes on has decoded an instruction at an aligned PC and run it. -/
theorem step_eq_next {s t : State} :
    step s = .next t ↔
      s.pc.toNat % 4 = 0 ∧ ∃ bytes i rest, fetch s = some bytes ∧ decodeBytes bytes = .ok (i, rest) ∧
        exec i s = .next t := by
  unfold step
  constructor
  · intro h
    split at h
    · rename_i aligned
      split at h
      · cases h
      · rename_i bytes fetched
        split at h
        · rename_i i rest decoded
          exact ⟨aligned, bytes, i, rest, fetched, decoded, h⟩
        · cases h
        · cases h
    · cases h
  · rintro ⟨aligned, bytes, i, rest, fetched, decoded, h⟩
    simp only [aligned, if_true, fetched, decoded, h]

end Sys2Proof.Machine
end

