-- ==== Sys2Proof/Laws/PerInstr.lean ====
section
/-! SUPPORT. Statements made per instruction. Family RoundTrip: a well-formed instruction is what its word decodes to. -/

namespace Sys2Proof.Laws.RoundTrip

/-- The word of a well-formed instruction decodes to it (R104, R110). -/
def Statement (i : Instr) : Prop := i.wellFormed = true → decodeWord (encode i) = .ok i

theorem mrsVtcrEl2 (t : BitVec 5) : Statement (.mrsVtcrEl2 t) := fun h => by
  rw [Instr.wellFormed] at h
  rw [encode, decodeWord, sysMoveOfWord_word, Option.bind_some, instrOfSysMove, if_pos h]
  rfl

theorem msrVtcrEl2 (t : BitVec 5) : Statement (.msrVtcrEl2 t) := fun h => by
  rw [Instr.wellFormed] at h
  rw [encode, decodeWord, sysMoveOfWord_word, Option.bind_some, instrOfSysMove, if_pos h]
  rfl

end Sys2Proof.Laws.RoundTrip
end

