-- ==== Sys2Proof/Laws/Stage2.lean ====
section
/-! SUPPORT. When the register has an effect on stage 2 translation, and what it then sets. -/

namespace Sys2Proof.Machine

theorem Stage2.hasEffect_eq_true {c : Config} {s : State} :
    Stage2.hasEffect c s = true ↔ c.haveEl2 = true ∧ s.el2Enabled = true := by
  simp [Stage2.hasEffect]

/-- Where there is a configuration it is the view, and there is one exactly where the register has an effect (R48, R65). -/
theorem stage2Config_eq_some {c : Config} {s : State} {k : Stage2Config} :
    stage2Config c s = some k ↔ (c.haveEl2 = true ∧ s.el2Enabled = true) ∧ Stage2.view c s = k := by
  rw [← Stage2.hasEffect_eq_true]
  unfold stage2Config
  split <;> simp [*]

theorem stage2Config_eq_none {c : Config} {s : State} :
    stage2Config c s = none ↔ ¬ (c.haveEl2 = true ∧ s.el2Enabled = true) := by
  rw [← Stage2.hasEffect_eq_true]
  unfold stage2Config
  split <;> simp [*]

end Sys2Proof.Machine
end

