-- ==== Sys2Proof/Laws/Vtcr.lean ====
section
/-! SUPPORT. The bits of VTCR_EL2: a write, and the constants of reserved bits. -/

namespace Sys2Proof.Machine

/-- What a write does to one bit, by the mask of bits that store (R44). -/
theorem Vtcr.getLsbD_write (c : Config) (old v : Word64) (b : Nat) (h : b < 64) :
    (Vtcr.write c old v).getLsbD b = if (Vtcr.storeMask c).getLsbD b then v.getLsbD b else old.getLsbD b := by
  simp only [Vtcr.write, BitVec.getLsbD_or, BitVec.getLsbD_and, BitVec.getLsbD_not, h, decide_true, Bool.true_and]
  cases (Vtcr.storeMask c).getLsbD b <;> simp

/-- The mask of constants holds the constant of every bit (R23, R43, R47). -/
theorem Vtcr.getLsbD_constants (c : Config) (b : Nat) (h : b < 64) :
    (Vtcr.constants c).getLsbD b = (Vtcr.kind c b).constant := by
  unfold Vtcr.constants
  cases e : c.haveEl2
  · simp [Vtcr.kind, e, BitKind.constant]
  · have table : ∀ b : Fin 64, (0x80000000#64).getLsbD b = decide (b.val = 31) := by decide
    rw [if_pos rfl, table ⟨b, h⟩]
    have field : ∀ p : Bool, (if p then BitKind.rw else BitKind.res0).constant = false := by decide
    unfold Vtcr.kind
    simp only [e, Bool.true_eq_false, if_false]
    split
    · simp [BitKind.constant]; omega
    · split
      · simp [BitKind.constant, *]
      · simp only [*, decide_false]
        repeat' split
        all_goals rfl

/-- Replacing TG0 changes bits 15 and 14 alone (R44). -/
theorem Vtcr.getLsbD_withTg0 (v : Word64) (g : BitVec 2) (b : Nat) (h : b < 64) :
    (Vtcr.withTg0 v g).getLsbD b = if b = 14 ∨ b = 15 then g.getLsbD (b - 14) else v.getLsbD b := by
  simp only [Vtcr.withTg0, BitVec.getLsbD_append, BitVec.getLsbD_extractLsb']
  by_cases h1 : b < 14
  · simp [h1, show ¬ (b = 14 ∨ b = 15) by omega]
  · by_cases h2 : b - 14 < 2
    · simp [h1, h2, show b = 14 ∨ b = 15 by omega]
    · simp [h1, h2, show ¬ (b = 14 ∨ b = 15) by omega, show b - 14 - 2 < 48 by omega,
        show 16 + (b - 14 - 2) = b by omega]

end Sys2Proof.Machine
end

