-- ==== Sys2Proof/Tests/Slice0.lean ====
section
/-! SUPPORT. The model's own tests, with expected results from spec/95_test_vectors.md and the rules, and for every
obligation with hypotheses a named witness that meets them. -/

namespace Sys2Proof.Tests

open Sys2Proof.Machine Sys2Proof.Safety

/-! ### Configurations and states -/

/-- Every optional feature, nothing stored in reserved bits. -/
def allFeatures : Config := {}

/-- No optional feature. -/
def noFeatures : Config :=
  { fromArmv84 := false, haveTtpbha := false, haveTthm := false, haveVmid16 := false, haveLpa := false, haveTtst := false }

/-- The configuration of the slot in 95_test_vectors.md 3.4. -/
def slotAt9 (big : Bool) : Config :=
  { nvmemBase := 0x90000000#64, nvmemBigEndian := big, nvmemBase_aligned := by decide, nvmemBase_inside := by decide }

/-- A state at a level, everything else zero. -/
def stateAt (el : ExceptionLevel) : State := { State.resetOn {} 0 with el := el }

/-- A state at EL1 with EL2 enabled and NV2:NV = 11, whose memory holds the slot, all zero. -/
def redirected (c : Config) : State :=
  { stateAt .el1 with
    el2Enabled := true, hcrNv := true, hcrNv2 := true
    mem := Memory.writeBytes [] (slotAddress c) (slotBytes false 0) }

/-- A state about to run an instruction at a level, VTCR_EL2 at the constants of the machine. -/
def about (el : ExceptionLevel) (i : Instr) : State :=
  State.withFetchWord { stateAt el with vtcrEl2 := Vtcr.constants implementation } 32 (encode i).toNat

/-- What a function of the next state is, where there is one. -/
def after {α : Type} (r : Result State) (f : State → α) : Option α :=
  match r with
  | .next s => some (f s)
  | _       => none

/-- The exception of an outcome: the target and code of a trap, or none of them for Undefined. -/
def exceptionOf (r : Result State) : Option (Option (ExceptionLevel × Nat)) :=
  match r with
  | .fault (.undefined _ _) => some none
  | .fault (.systemAccessTrap target code _ _) => some (some (target, code))
  | _ => none

/-! ### Ill-formed moves: one for each field of R102 -/

theorem test_illFormed_op0 : SysMove.wellFormed ⟨true, 0, 0b100, 0b0010, 0b0001, 0b010, 0⟩ = false := by decide
theorem test_illFormed_op1 : SysMove.wellFormed ⟨true, 1, 0b000, 0b0010, 0b0001, 0b010, 0⟩ = false := by decide
theorem test_illFormed_crn : SysMove.wellFormed ⟨true, 1, 0b100, 0b0001, 0b0001, 0b010, 0⟩ = false := by decide
theorem test_illFormed_crm : SysMove.wellFormed ⟨true, 1, 0b100, 0b0010, 0b0000, 0b010, 0⟩ = false := by decide
theorem test_illFormed_op2 : SysMove.wellFormed ⟨true, 1, 0b100, 0b0010, 0b0001, 0b001, 0⟩ = false := by decide

/-! ### Words written out from R104 (95_test_vectors.md 3.1) -/

theorem test_decode_mrs_x5 : decodeTableWord 32 0b11010101001111000010000101000101 = some (.mrsVtcrEl2 5) := by decide
theorem test_decode_mrs_xzr : decodeTableWord 32 0b11010101001111000010000101011111 = some (.mrsVtcrEl2 31) := by decide
theorem test_decode_msr_x17 : decodeTableWord 32 0b11010101000111000010000101010001 = some (.msrVtcrEl2 17) := by decide
theorem test_decode_msr_x30 : decodeTableWord 32 0b11010101000111000010000101011110 = some (.msrVtcrEl2 30) := by decide

/-- Fetch is little-endian: `MRS X0, VTCR_EL2` is the bytes 40 21 3C D5 (R111). -/
theorem test_bytes_mrs_x0 : bytesOfWord (encode (.mrsVtcrEl2 0)) = [0x40, 0x21, 0x3C, 0xD5] := by decide

/-- The words 95_test_vectors.md 3.1 says must be refused. -/
theorem test_refused_words :
    [0xD53C2120, 0xD53C2040, 0xD53C1140, 0xD5382140, 0xD5342140, 0xD52C2140, 0x00000000, 0xFFFFFFFF].map
      (decodeTableWord 32) = List.replicate 8 none := by decide

/-! ### Write and read back (95_test_vectors.md 2.2) -/

theorem test_writeRead_allFeatures :
    Vtcr.read allFeatures (Vtcr.write allFeatures 0x80000000 0xFFFFFFFFFFFFFFFF) = 0xFE6FFFFF ∧
    Vtcr.read allFeatures (Vtcr.write allFeatures 0x80000000 0x80163590) = 0x80063590 := by decide

theorem test_writeRead_noFeatures :
    Vtcr.read noFeatures (Vtcr.write noFeatures 0x80000000 0xFFFFFFFFFFFFFFFF) = 0x8007FFFF ∧
    Vtcr.read noFeatures (Vtcr.write noFeatures 0x80000000 0xE06A7F90) = 0x80027F90 := by decide

theorem test_writeRead_bit31Stored :
    Vtcr.read { resStored := 0x80000000 } (Vtcr.write { resStored := 0x80000000 } 0x80000000 0x7E6FFFFF) = 0x7E6FFFFF := by
  decide

/-- TG0 = 0b10 without the 16KB granule reads back as the fallback 64KB. -/
def readsBackEffective : Config :=
  { noFeatures with
    granules := { has16K := false }, tg0Fallback := fun v => if v = 0b10 then .k64 else .k4,
    tg0ReadbackEffective := true, tg0Fallback_implemented := by decide }

theorem test_writeRead_tg0 :
    Vtcr.read readsBackEffective (Vtcr.write readsBackEffective 0x80000000 0x8002B558) = 0x80027558 := by decide

theorem test_writeRead_withoutEl2 :
    Vtcr.read { haveEl2 := false } (Vtcr.write { haveEl2 := false } 0 0x80023558) = 0 ∧
    Vtcr.read { haveEl2 := false, resStored := BitVec.allOnes 64 }
      (Vtcr.write { haveEl2 := false, resStored := BitVec.allOnes 64 } 0 0x80023558) = 0x80023558 := by decide

/-! ### The two instructions (95_test_vectors.md 3.2) -/

/-- The worked example of R120; the trap; and NV2 alone, which is Undefined (R120, R139). -/
theorem test_mrs :
    after (execMrsVtcrEl2On allFeatures 1 ((stateAt .el2).setVtcr 0x80023558)) (fun s => (s.readX 1, s.pc)) =
      some (0x80023558, 4) ∧
    exceptionOf (execMrsVtcrEl2On allFeatures 5 { redirected allFeatures with hcrNv2 := false }) =
      some (some (.el2, 24)) ∧
    exceptionOf (execMrsVtcrEl2On allFeatures 5 { redirected allFeatures with hcrNv := false }) = some none := by decide

/-- A value with reserved SH0 and a RES0 bit set, and the redirected store of 3.4, most significant byte last. -/
theorem test_msr :
    after (execMsrVtcrEl2On allFeatures 5 (((stateAt .el3).setVtcr 0x80023558).writeX 5 0xAAAA5555))
      (fun s => s.vtcrEl2) = some 0xAA2A5555 ∧
    after (execMsrVtcrEl2On (slotAt9 false) 2 ((redirected (slotAt9 false)).writeX 2 0x0123456789ABCDEF))
      (fun s => (s.mem.read 0x90000040, s.mem.read 0x90000047, s.vtcrEl2)) = some (some 0xEF, some 0x01, 0x80000000) := by
  decide

theorem test_bigEndianSlot :
    slotBytes true 0x0123456789ABCDEF = [0x01, 0x23, 0x45, 0x67, 0x89, 0xAB, 0xCD, 0xEF] := by decide

/-- The first step from reset runs the instruction placed there. -/
theorem test_firstStepFromReset :
    after (step (State.reset.withFetchWord 32 0xD53C2140)) (fun s => s.pc) = some 0x80004 ∧
    after (step (State.reset.withFetchWord 32 0xD51C2140)) (fun s => s.pc) = some 0x80004 := by decide

/-- The syndromes of 3.3. -/
theorem test_trapSyndrome :
    trapSyndrome (.mrsVtcrEl2 5) = 0x623508A3 ∧ trapSyndrome (.msrVtcrEl2 31) = 0x62350BE2 := by decide

/-! ### The stage 2 view (95_test_vectors.md 4.7) -/

/-- A Secure state with EL2 enabled that holds a value. -/
def holding (v : Word64) : State := { stateAt .el2 with el2Enabled := true, vtcrEl2 := v }

theorem test_view_E06A7F90 :
    (stage2Config allFeatures (holding 0xE06A7F90)).map (fun k => (k.regionSize, k.outputBits, k.granule, k.startLevel)) =
      some (281474976710656, some 40, .k64, .level 1) ∧
    (stage2Config allFeatures (holding 0xE06A7F90)).map (fun k => (k.outputNs, k.dirtyHw, k.vmid16)) =
      some (some true, some true, some true) := by decide

theorem test_view_outputBits :
    Stage2.outputBits allFeatures 0x80064F50 = some 52 ∧ Stage2.outputBits noFeatures 0x80064F50 = none ∧
    Stage2.outputBits allFeatures 0x80063590 = none := by decide

theorem test_view_startLevel :
    Stage2.startLevel allFeatures 0x800735D9 = .level 3 ∧ Stage2.level0Fault noFeatures 0x800735D9 = true ∧
    stage2Attempt allFeatures (holding 0x80001000) = .refusedShareability := by decide

/-- VS sets the VMID size only where the field exists and EL2 is enabled (R43, R47, R48, R84). -/
theorem test_view_vmidBits :
    Stage2.vmidBits allFeatures (holding 0x80080000) = some 16 ∧ Stage2.vmidBits noFeatures (holding 0x80080000) = some 8 ∧
    Stage2.vmidBits allFeatures { holding 0x80080000 with el2Enabled := false } = none ∧
    Stage2.vmidBits { haveEl2 := false, resStored := 0x80000 } (holding 0x80080000) = none := by decide

/-- Bits [51:48] of table bases: below 52 bits, at 52 bits, and without 52-bit addresses (R68, log 21). -/
theorem test_view_tableBaseHighZero :
    (stage2Config allFeatures (holding 0x80057590)).map (fun k => k.tableBaseHighZero) = some (some true) ∧
    (stage2Config allFeatures (holding 0x80064F50)).map (fun k => k.tableBaseHighZero) = some (some false) ∧
    (stage2Config noFeatures (holding 0x80064F50)).map (fun k => k.tableBaseHighZero) = some none := by decide

/-! ### Witnesses: states and operands that meet the hypotheses of each obligation -/

theorem witness_DecodingTheBytesOfAnInstruction :
    (Instr.mrsVtcrEl2 0).wellFormed = true ∧ (Instr.msrVtcrEl2 31).wellFormed = true := by decide

theorem witness_OnlyAnInstructionsOwnWordDecodes :
    decodeWord 0xD53C2140#32 = .ok (.mrsVtcrEl2 0) ∧ decodeWord 0xD51C215F#32 = .ok (.msrVtcrEl2 31) := by decide

theorem runs_mrs (el : ExceptionLevel) : Runs (about el (.mrsVtcrEl2 0)) (.mrsVtcrEl2 0) :=
  ⟨0x40, 0x21, 0x3C, 0xD5, ⟨rfl, rfl, rfl, rfl, rfl⟩, by decide⟩

theorem runs_msr (el : ExceptionLevel) : Runs (about el (.msrVtcrEl2 0)) (.msrVtcrEl2 0) :=
  ⟨0x40, 0x21, 0x1C, 0xD5, ⟨rfl, rfl, rfl, rfl, rfl⟩, by decide⟩

theorem witness_StepRunsTheDecodedInstruction : ∃ s i, Runs s i := ⟨_, _, runs_mrs .el2⟩

/-- Text at the top of the address space that holds the word 0. -/
def zeroWordAtTop : State :=
  State.withFetchWord { stateAt .el2 with pc := 0xFFFFFFFFFFFFFFFC } 32 0

theorem witness_StepRefusesEveryOtherWord :
    FetchesBytes zeroWordAtTop 0 0 0 0 ∧ wordOfBytes 0 0 0 0 &&& 0xFFFFFFE0#32 ≠ 0xD53C2140#32 ∧
    wordOfBytes 0 0 0 0 &&& 0xFFFFFFE0#32 ≠ 0xD51C2140#32 :=
  ⟨⟨rfl, rfl, rfl, rfl, rfl⟩, by decide, by decide⟩

/-- Three bytes of text at the PC. -/
def threeBytes : State := { stateAt .el2 with text := [(0, 0x40), (1, 0x21), (2, 0x3C)] }

theorem witness_StepStopsWithoutAnInstruction :
    (threeBytes.pc.toNat % 4 = 0 ∧ threeBytes.text.read (threeBytes.pc.toNat + 3) = none) ∧
    (threeBytes.setPc 3).pc.toNat % 4 ≠ 0 := by decide

theorem witness_APlacedWordIsRunNext : zeroWordAtTop.pc.toNat % 4 = 0 ∧ (stateAt .el2).pc.toNat % 4 = 0 := by decide

/-! At EL2 with PC 0, and at EL3 with the highest PC that has room. -/

theorem witness_MrsAtEl2AndEl3ReadsTheRegister :
    (AtEl2OrEl3 (stateAt .el2) ∧ PcHasRoom (stateAt .el2)) ∧
    AtEl2OrEl3 ((stateAt .el3).setPc 0xFFFFFFFFFFFFFFF8) ∧ PcHasRoom ((stateAt .el3).setPc 0xFFFFFFFFFFFFFFF8) :=
  ⟨⟨.inl rfl, by unfold PcHasRoom; decide⟩, .inr rfl, by unfold PcHasRoom; decide⟩

theorem witness_MsrAtEl2AndEl3WritesTheRegister :
    ∃ s b, AtEl2OrEl3 s ∧ PcHasRoom s ∧ b < 64 ∧ (Vtcr.kind allFeatures b = .rw ∨ allFeatures.resStored.getLsbD b = true) :=
  ⟨_, 0, witness_MrsAtEl2AndEl3ReadsTheRegister.1.1, witness_MrsAtEl2AndEl3ReadsTheRegister.1.2, by decide, by decide⟩

theorem witness_TheZeroRegisterAsOperand : ∃ s, AtEl2OrEl3 s ∧ PcHasRoom s :=
  ⟨_, witness_MrsAtEl2AndEl3ReadsTheRegister.2⟩

theorem redirected_redirected (c : Config) : Redirected (redirected c) := ⟨rfl, rfl, rfl, rfl⟩

theorem room_redirected (c : Config) : PcHasRoom (redirected c) := by
  show (0 : Nat) + 4 < 2 ^ 64
  decide

/-- Memory right after the slot was written admits the access, where the text is empty or stands below the slot. -/
theorem admitted_of_written {c : Config} {s : State} {m : Memory} {big : Bool} {v : Word64}
    (written : s.mem = m.writeBytes (slotAddress c) (slotBytes big v)) (below : ∀ cell ∈ s.text, cell.1 < 0x40) :
    NvmemAdmitted c s := by
  refine ⟨fun cell h within => ?_, fun i hi => ?_⟩
  · have := below cell h
    unfold slotAddress at within
    omega
  · rw [written, read_writeBytes_slot, if_pos (by omega)]
    rfl

theorem admitted_redirected (c : Config) : NvmemAdmitted c (redirected c) := admitted_of_written rfl nofun

theorem witness_MrsRedirectedReadsTheSlot :
    ∃ s, Redirected s ∧ NvmemAdmitted implementation s ∧ PcHasRoom s :=
  ⟨_, redirected_redirected _, admitted_redirected _, room_redirected implementation⟩

theorem witness_MsrRedirectedWritesTheSlot :
    ∃ s, Redirected s ∧ NvmemAdmitted implementation s ∧ PcHasRoom s := witness_MrsRedirectedReadsTheSlot

/-- An admitted redirected MRS goes on. -/
theorem mrs_admitted_goes_on {s : State} (t : BitVec 5) (r : Redirected s) (h : NvmemAdmitted implementation s)
    (room : PcHasRoom s) : ∃ s', exec (.mrsVtcrEl2 t) s = .next s' := by
  obtain ⟨bs, found, -⟩ := slotContents_of_admitted h
  let s1 := s.writeX t (slotValue implementation.nvmemBigEndian bs)
  have room1 : PcHasRoom s1 := by simpa [PcHasRoom, s1] using room
  refine ⟨s1.setPc (s1.pc + 4), ?_⟩
  simp only [exec, execMrsVtcrEl2, execMrsVtcrEl2On, route_eq_nvmem.mpr r, readNvmem, found, Result.andThen]
  exact complete_of_room room1

/-- The redirected MSR goes on, to a state that a redirected MRS can start from. -/
theorem msr_redirected_goes_on (t : BitVec 5) :
    ∃ s', exec (.msrVtcrEl2 t) (redirected implementation) = .next s' ∧ Redirected s' ∧
      NvmemAdmitted implementation s' ∧ PcHasRoom s' := by
  obtain ⟨bs, found, -⟩ := slotContents_of_admitted (admitted_redirected implementation)
  let s1 := (redirected implementation).setMem ((redirected implementation).mem.writeBytes (slotAddress implementation)
    (slotBytes implementation.nvmemBigEndian ((redirected implementation).readX t)))
  refine ⟨s1.setPc (s1.pc + 4), ?_, ⟨rfl, rfl, rfl, rfl⟩, admitted_of_written rfl nofun, ?_⟩
  · simp only [exec, execMsrVtcrEl2, execMsrVtcrEl2On, route_eq_nvmem.mpr (redirected_redirected _), writeNvmem, found,
      Result.andThen]
    exact complete_of_room (room_redirected implementation)
  · show (4 : Nat) + 4 < 2 ^ 64
    decide

theorem witness_MrsFrame :
    (∃ s', exec (.mrsVtcrEl2 5) (stateAt .el2) = .next s') ∧
    ∃ s', exec (.mrsVtcrEl2 5) (redirected implementation) = .next s' :=
  ⟨⟨_, rfl⟩, mrs_admitted_goes_on 5 (redirected_redirected _) (admitted_redirected _) (room_redirected implementation)⟩

theorem witness_MsrFrame :
    (∃ s', exec (.msrVtcrEl2 5) (stateAt .el2) = .next s') ∧
    ∃ s', exec (.msrVtcrEl2 5) (redirected implementation) = .next s' :=
  ⟨⟨_, rfl⟩, (msr_redirected_goes_on 5).imp fun _ h => h.1⟩

/-- At EL1 with EL2 enabled, and with these bits of HCR_EL2. -/
def nested (nv nv2 : Bool) : State := { stateAt .el1 with el2Enabled := true, hcrNv := nv, hcrNv2 := nv2 }

theorem witness_RedirectionPrecedesTrapPrecedesUndefined :
    Redirected (nested true true) ∧ AtEl2OrEl3 { nested true true with el := .el2 } ∧
    AtEl2OrEl3 { nested true false with el := .el3 } ∧
    ((nested true false).el = .el1 ∧ (nested true false).el2Enabled = true ∧ (nested true false).hcrNv = true ∧
      (nested true false).hcrNv2 = false) ∧
    ((nested false true).el = .el1 ∧ ¬ ((nested false true).el2Enabled = true ∧ (nested false true).hcrNv = true)) ∧
    (stateAt .el0).el = .el0 :=
  ⟨⟨rfl, rfl, rfl, rfl⟩, .inl rfl, .inr rfl, by decide⟩

/-- Only the last byte of the slot is missing. -/
def sevenBytes : State :=
  { redirected implementation with
    mem := Memory.writeBytes [] (slotAddress implementation) (List.replicate 7 0) }

theorem witness_AnAbsentSlotIsStuck :
    Redirected sevenBytes ∧ textOverlapsSlot implementation sevenBytes = false ∧
    sevenBytes.mem.read (slotAddress implementation + 7) = none := by
  refine ⟨⟨rfl, rfl, rfl, rfl⟩, rfl, ?_⟩
  rw [sevenBytes, Memory.read_writeBytes]
  exact dif_neg (by simp)

/-- One byte of text, at a distance from the start of the slot. -/
def textAtSlot (i : Nat) : State := { redirected implementation with text := [(slotAddress implementation + i, 0)] }

theorem witness_TextOnTheSlotIsRefused (i : Nat) (h : i = 0 ∨ i = 7) :
    Redirected (textAtSlot i) ∧ (slotAddress implementation + i, 0) ∈ (textAtSlot i).text ∧
    slotAddress implementation ≤ slotAddress implementation + i ∧
    slotAddress implementation + i < slotAddress implementation + 8 :=
  ⟨⟨rfl, rfl, rfl, rfl⟩, List.mem_singleton_self _, by omega, by omega⟩

theorem witness_PcPastTheTopIsRefused :
    (AtEl2OrEl3 zeroWordAtTop ∧ 2 ^ 64 ≤ zeroWordAtTop.pc.toNat + 4) ∧
    ∃ s, Redirected s ∧ NvmemAdmitted implementation s ∧ 2 ^ 64 ≤ s.pc.toNat + 4 :=
  ⟨⟨.inl rfl, by decide⟩, (redirected implementation).setPc 0xFFFFFFFFFFFFFFFC, ⟨rfl, rfl, rfl, rfl⟩,
    admitted_of_written rfl nofun, by simp⟩

theorem constants_hold (c : Config) : ReservedBitsHold c (Vtcr.constants c) :=
  fun b hb _ _ => Vtcr.getLsbD_constants c b hb

theorem witness_MrsAfterMsrAtEl2OrEl3 :
    ∃ s s1 u2, AtEl2OrEl3 s ∧ ReservedBitsHold implementation s.vtcrEl2 ∧ exec (.msrVtcrEl2 0) s = .next s1 ∧
      AtEl2OrEl3 s1 ∧ exec (.mrsVtcrEl2 30) s1 = .next u2 :=
  ⟨(stateAt .el3).setVtcr (Vtcr.constants implementation), _, _, .inr rfl, constants_hold _, rfl, .inr rfl, rfl⟩

theorem witness_MrsAfterMsrThroughMemory :
    ∃ s s1 u2, Redirected s ∧ exec (.msrVtcrEl2 0) s = .next s1 ∧ Redirected s1 ∧ exec (.mrsVtcrEl2 30) s1 = .next u2 := by
  obtain ⟨s1, done, r, admitted, room⟩ := msr_redirected_goes_on 0
  obtain ⟨u2, done2⟩ := mrs_admitted_goes_on 30 r admitted room
  exact ⟨_, s1, u2, redirected_redirected _, done, r, done2⟩

theorem witness_RepeatingAnAccessChangesNothing : ∃ i s s', exec i s = .next s' := ⟨_, _, witness_MsrFrame.2⟩

theorem witness_EveryStepKeepsTheInvariant :
    ∃ s t, Inv implementation s ∧ step s = .next t :=
  ⟨about .el3 (.msrVtcrEl2 0), _,
    ⟨constants_hold _, ⟨nofun, fun _ => rfl, nofun⟩, rfl, by decide, by decide⟩, rfl⟩

theorem witness_ResetDrawsTheBitsThatStore : (0 < 64 ∧ Vtcr.kind allFeatures 0 = .rw) ∧
    (31 < 64 ∧ Vtcr.kind allFeatures 31 ≠ .rw ∧ allFeatures.resStored.getLsbD 31 = false) := by decide

theorem witness_EveryStepAdvancesThePcByFour : ∃ s t, step s = .next t :=
  ⟨about .el2 (.mrsVtcrEl2 0), _, rfl⟩

theorem witness_NoStepWritesTheInputs : ∃ s t, step s = .next t := witness_EveryStepAdvancesThePcByFour

theorem witness_OnlyAnMsrAtEl2OrEl3ChangesVtcr : ∃ s t, step s = .next t := witness_EveryStepAdvancesThePcByFour

theorem witness_OnlyItsMrsChangesARegister : ∃ s t, step s = .next t := witness_EveryStepAdvancesThePcByFour

theorem witness_OnlyARedirectedMsrChangesMemory :
    ∃ s t, step s = .next t ∧ Redirected s := by
  let s := State.withFetchWord (redirected implementation) 32 (encode (.mrsVtcrEl2 0)).toNat
  have r : Redirected s := ⟨rfl, rfl, rfl, rfl⟩
  have admitted : NvmemAdmitted implementation s := admitted_of_written rfl (by decide)
  obtain ⟨t, done⟩ := mrs_admitted_goes_on 0 r admitted (room_redirected implementation)
  exact ⟨s, t, done, r⟩

theorem witness_BelowEl2VtcrIsIsolated : ∃ s t, s.el = .el1 ∧ step s = .next t := by
  obtain ⟨s, t, done, r⟩ := witness_OnlyARedirectedMsrChangesMemory
  exact ⟨s, t, r.1, done⟩

theorem witness_OtherInputsAreNotConsulted :
    (stateAt .el0).el ≠ .el1 ∧ (stateAt .el2).el ≠ .el1 ∧ (stateAt .el3).el ≠ .el1 := by decide

theorem witness_TheKindOfEveryBit :
    allFeatures.haveEl2 = true ∧ noFeatures.haveEl2 = true ∧ Vtcr.kind allFeatures 32 = .res0 ∧
    Vtcr.kind allFeatures 25 = .rw ∧ Vtcr.kind noFeatures 28 = .res0 ∧ Vtcr.kind noFeatures 18 = .rw := by decide

theorem witness_WriteIsTheLoopOverTheBits : (0 < 64 ∧ Vtcr.kind noFeatures 0 = .rw) ∧
    (63 < 64 ∧ Vtcr.kind noFeatures 63 ≠ .rw ∧ noFeatures.resStored.getLsbD 63 = false) := by decide

theorem witness_ReadIsTheStoredValueButForTg0 :
    readsBackEffective.haveEl2 = true ∧ readsBackEffective.tg0ReadbackEffective = true ∧
    (∀ g, Vtcr.granuleOf (Vtcr.tg0 0x80008000) = some g → readsBackEffective.granules.has g = false) := by decide

/-- A configuration without EL2, in which bit 31 stores. -/
def withoutEl2 : Config := { haveEl2 := false, resStored := 0x80000000 }

theorem witness_WithoutEl2TheRegisterIsRes0 :
    withoutEl2.haveEl2 = false ∧ ReservedBitsHold withoutEl2 0x80000000 ∧ LevelsLegal withoutEl2 (stateAt .el1) ∧
    (stateAt .el1).el = .el1 :=
  ⟨rfl, by unfold ReservedBitsHold; decide, ⟨nofun, nofun, nofun⟩, rfl⟩

theorem witness_RegionSizeIsAPowerOfTwo :
    (0x80000000 : Word64).toNat % 64 = 0 ∧ (0x8000003F : Word64).toNat % 64 = 63 := by decide

theorem witness_TheGranuleInEffectIsImplemented :
    (Vtcr.granuleOf (Vtcr.tg0 0x80004000) = some .k64 ∧ readsBackEffective.granules.has .k64 = true) ∧
    (∀ g, Vtcr.granuleOf (Vtcr.tg0 0x80008000) = some g → readsBackEffective.granules.has g = false) ∧
    (∀ g, Vtcr.granuleOf (Vtcr.tg0 0x8000C000) = some g → allFeatures.granules.has g = false) := by decide

theorem witness_TheOutputAddressSizes :
    [0x80000000, 0x80010000, 0x80020000, 0x80030000, 0x80040000, 0x80050000, 0x80064000, 0x80074000].map Vtcr.ps =
      [0b000, 0b001, 0b010, 0b011, 0b100, 0b101, 0b110, 0b111] ∧
    allFeatures.haveLpa = true ∧ Vtcr.effTg0 allFeatures 0x80064000 = .k64 ∧
    allFeatures.psReservedAs = .as101 ∧
    Vtcr.effTg0 { psReservedAs := .as110 } 0x80074000 = .k64 ∧ ({ psReservedAs := .as110 } : Config).haveLpa = true := by
  decide

theorem witness_TableBaseHighBitsAreZeroBelow52Bits :
    allFeatures.haveEl2 = true ∧ (holding 0x80000000).el2Enabled = true ∧ allFeatures.haveLpa = true ∧
    noFeatures.haveEl2 = true ∧ noFeatures.haveLpa = false := by decide

theorem witness_StartLevelsWithTtst : allFeatures.haveTtst = true := rfl

theorem witness_StartLevelsWithoutTtst : noFeatures.haveTtst = false := rfl

theorem witness_WhenNsaBehavesAsOne :
    (stateAt .el2).securityState ≠ .nonSecure ∧ Vtcr.nsw (holding 0x20000000).vtcrEl2 = true ∧
    Vtcr.nsw (holding 0x40000000).vtcrEl2 = false ∧ (holding 0x40000000).vstcrSa = false := by decide

theorem witness_WhenNswBehavesAsOne :
    (stateAt .el2).securityState = .secure ∧ (stateAt .el2).vstcrSa = false ∧
    ({ stateAt .el2 with securityState := .nonSecure } : State).securityState = .nonSecure ∧
    Vtcr.nsw 0x20000000 = true ∧ Vtcr.nsw 0x60000000 = true := by decide

theorem witness_NoEffectWhileEl2IsNotEnabled :
    (stateAt .el2).el2Enabled = false ∧ withoutEl2.haveEl2 = false ∧ allFeatures.haveEl2 = true ∧
    (holding 0).el2Enabled = true := by decide

theorem witness_WhenATranslationIsRefusedOrFaults :
    noFeatures.haveEl2 = true ∧ (holding 0).el2Enabled = true ∧ Vtcr.sh0 0x80001000 = 0b01 ∧ Stage2.effPs noFeatures 0x80060000 = 0b110 ∧
    Stage2.outputBits noFeatures 0x800000C0 ≠ none ∧ Stage2.level0Fault noFeatures 0x800000C0 = true := by decide

theorem witness_AUsableValueConfiguresTranslation :
    allFeatures.haveEl2 = true ∧ (holding 0x80023558).el2Enabled = true ∧
    Usable allFeatures (holding 0x80023558).vtcrEl2 :=
  ⟨rfl, rfl, by decide, by decide, by decide, by decide, by decide, by decide⟩

theorem witness_OnlyAnMsrChangesTheStage2Configuration :
    ∃ s t n, exec (.msrVtcrEl2 n) s = .next t ∧ ¬ AtEl2OrEl3 s :=
  (msr_redirected_goes_on 0).elim fun t h => ⟨_, t, 0, h.1, by rintro (e | e) <;> cases e⟩

theorem witness_TheComponentsOfTheConfiguration : ∃ k, stage2Config allFeatures (holding 0x80023558) = some k := ⟨_, rfl⟩

/-- Bit 19 is reserved without 16-bit VMIDs. -/
theorem witness_ReservedBitsHaveNoEffect :
    ∀ b, b < 64 → Vtcr.kind noFeatures b = .rw →
      (0x80080000 : Word64).getLsbD b = (holding 0x80000000).vtcrEl2.getLsbD b := by decide

end Sys2Proof.Tests
end

section
/-! Proofs about the fields of VTCR_EL2: what T0SZ is as a number, which TG0 encodings name a granule, and which bits a
read returns as stored. -/

namespace Sys2Proof.Machine

/-- T0SZ is the value modulo 64 (R21, R42). -/
@[simp] theorem Vtcr.toNat_t0sz (v : Word64) : (Vtcr.t0sz v).toNat = v.toNat % 64 := by
  simp [Vtcr.t0sz]

@[simp] theorem Vtcr.granuleOf_encodingOf (g : Granule) : Vtcr.granuleOf (Vtcr.encodingOf g) = some g := by
  cases g <;> rfl

/-- The one reserved encoding of TG0 (R69). -/
theorem Vtcr.granuleOf_eq_none {tg0 : BitVec 2} : Vtcr.granuleOf tg0 = none ↔ tg0 = 0b11 := by
  revert tg0
  decide

/-- A read may replace TG0, at bits 15 and 14, and returns every other bit as stored (R44). -/
theorem Vtcr.getLsbD_read_of_ne (c : Config) (v : Word64) {b : Nat} (hb : b < 64) (h14 : b ≠ 14) (h15 : b ≠ 15) :
    (Vtcr.read c v).getLsbD b = v.getLsbD b := by
  unfold Vtcr.read
  split
  · rw [Vtcr.getLsbD_withTg0 v _ b hb, if_neg (by omega)]
  · rfl

@[simp] theorem Vtcr.nsa_read (c : Config) (v : Word64) : Vtcr.nsa (Vtcr.read c v) = Vtcr.nsa v :=
  Vtcr.getLsbD_read_of_ne c v (by decide) (by decide) (by decide)

end Sys2Proof.Machine
end

section
/-! Proofs about the stage 2 view: the region size, one equation of the start level per value of SL0, the components of
the view, and the effective NSA. -/

namespace Sys2Proof.Machine

/-- The region size by the register's value alone, over the naturals (R62). -/
theorem Stage2.regionSize_eq (v : Word64) : Stage2.regionSize v = 2 ^ (64 - v.toNat % 64) := by
  rw [Stage2.regionSize, Vtcr.toNat_t0sz]

/-! ### Start level: R76 and R77 differ at SL0 = 0b11 for 4KB only -/

theorem Stage2.startLevelOf_sl0_00 (c : Config) (g : Granule) :
    Stage2.startLevelOf c g 0b00#2 = if g = .k4 then .level 2 else .level 3 := by
  cases g <;> rfl

theorem Stage2.startLevelOf_sl0_01 (c : Config) (g : Granule) :
    Stage2.startLevelOf c g 0b01#2 = if g = .k4 then .level 1 else .level 2 := by
  cases g <;> rfl

theorem Stage2.startLevelOf_sl0_10 (c : Config) (g : Granule) :
    Stage2.startLevelOf c g 0b10#2 = if g = .k4 then .level 0 else .level 1 := by
  cases g <;> rfl

theorem Stage2.startLevelOf_sl0_11 (c : Config) (g : Granule) :
    Stage2.startLevelOf c g 0b11#2 = if g = .k4 ∧ c.haveTtst = true then .level 3 else .reserved := by
  cases g <;> simp [Stage2.startLevelOf]

/-! ### Components of the view (R65) -/

@[simp] theorem Stage2.view_walkShare (c : Config) (s : State) :
    (Stage2.view c s).walkShare = Stage2.shareabilityOf (Vtcr.sh0 s.vtcrEl2) := rfl
@[simp] theorem Stage2.view_walkOuter (c : Config) (s : State) :
    (Stage2.view c s).walkOuter = Stage2.cacheabilityOf (Vtcr.orgn0 s.vtcrEl2) := rfl
@[simp] theorem Stage2.view_walkInner (c : Config) (s : State) :
    (Stage2.view c s).walkInner = Stage2.cacheabilityOf (Vtcr.irgn0 s.vtcrEl2) := rfl
@[simp] theorem Stage2.view_outputNs (c : Config) (s : State) :
    (Stage2.view c s).outputNs = if c.fromArmv84 = true then some (Stage2.effNsa s) else none := rfl

/-! ### The effective NSA (R79) -/

theorem Stage2.effNsa_of_forced {s : State}
    (h : s.securityState = .nonSecure ∨ Vtcr.nsw s.vtcrEl2 = true ∨ s.vstcrSa = true) : Stage2.effNsa s = true :=
  if_pos h

theorem Stage2.effNsa_of_not_forced {s : State}
    (h : ¬ (s.securityState = .nonSecure ∨ Vtcr.nsw s.vtcrEl2 = true ∨ s.vstcrSa = true)) :
    Stage2.effNsa s = Vtcr.nsa s.vtcrEl2 :=
  if_neg h

end Sys2Proof.Machine
end

section
/-! Proofs of the statements about the sizes, granules, start levels and attributes that the fields set. -/

namespace Sys2Proof.Proofs

open Sys2Proof.Machine

/-- Settles O42: T0SZ is the value modulo 64, so both boundary values are powers of two by evaluation. -/
theorem regionSizeIsAPowerOfTwo : Obligations.RegionSizeIsAPowerOfTwo := by
  refine ⟨Stage2.regionSize_eq, fun v h => ?_, fun v h => ?_⟩
  · simp [Stage2.regionSize_eq, h]
  · simp [Stage2.regionSize_eq, h]

/-- Settles O43: three encodings are those of the granules, and the fourth is the reserved one. -/
theorem theEncodingsOfTg0 : Obligations.TheEncodingsOfTg0 :=
  ⟨Vtcr.granuleOf_encodingOf .k4, Vtcr.granuleOf_encodingOf .k64, Vtcr.granuleOf_encodingOf .k16,
    Vtcr.granuleOf_eq_none.mpr rfl⟩

/-- Settles O48, row by row of the table of R76. -/
theorem startLevelsWithTtst : Obligations.StartLevelsWithTtst := by
  intro c ttst
  refine ⟨?sl00, ?sl01, ?sl10, ?sl11⟩
  case sl00 => simp [Stage2.startLevelOf_sl0_00]
  case sl01 => simp [Stage2.startLevelOf_sl0_01]
  case sl10 => simp [Stage2.startLevelOf_sl0_10]
  case sl11 => simp [Stage2.startLevelOf_sl0_11, ttst]

/-- Settles O49, row by row of the table of R77. -/
theorem startLevelsWithoutTtst : Obligations.StartLevelsWithoutTtst := by
  intro c noTtst
  refine ⟨?sl00, ?sl01, ?sl10, fun g => ?sl11⟩
  case sl00 => simp [Stage2.startLevelOf_sl0_00]
  case sl01 => simp [Stage2.startLevelOf_sl0_01]
  case sl10 => simp [Stage2.startLevelOf_sl0_10]
  case sl11 => simp [Stage2.startLevelOf_sl0_11, noTtst]

/-- Settles O51: the components of the view are the meanings of their fields, each meaning read off its table. -/
theorem theAttributesOfWalks : Obligations.TheAttributesOfWalks :=
  ⟨rfl, rfl, rfl, fun c s =>
    ⟨Stage2.view_walkShare c s, Stage2.view_walkOuter c s, Stage2.view_walkInner c s, rfl, rfl, rfl, rfl⟩⟩

/-- Settles O52: bit 30 lies outside TG0, so a read returns it as stored. -/
theorem whenNsaBehavesAsOne : Obligations.WhenNsaBehavesAsOne := fun c s =>
  ⟨Stage2.effNsa_of_forced, Stage2.effNsa_of_not_forced, Stage2.view_outputNs c s, rfl, rfl,
    Vtcr.nsa_read c s.vtcrEl2⟩

end Sys2Proof.Proofs
end

section
/-! Proofs about the encoding: what it says of a System register move that it is well formed, and that both instructions
name VTCR_EL2. -/

namespace Sys2Proof

/-- The check on a move is on its five fields, one by one (R102). -/
theorem SysMove.wellFormed_iff {m : SysMove} : m.wellFormed = true ↔
    m.op0 = 0b11 ∧ m.op1 = 0b100 ∧ m.crn = 0b0010 ∧ m.crm = 0b0001 ∧ m.op2 = 0b010 := by
  simp [SysMove.wellFormed, and_assoc]

end Sys2Proof

namespace Sys2Proof.Proofs

/-- Settles O4: the move of every instruction is well formed, which is the five values; the two moves of one operand
number are written with the same fields but for the direction. -/
theorem bothInstructionsNameVtcrByItsFiveFields : Obligations.BothInstructionsNameVtcrByItsFiveFields :=
  ⟨fun i => SysMove.wellFormed_iff.mp i.wellFormed_eq_true, fun _ => ⟨rfl, rfl⟩⟩

end Sys2Proof.Proofs
end

section
/-! Proofs about the arms of the two instructions: what executing answers on each arm of the access pseudocode, and the
faults a redirected access can end in. -/

namespace Sys2Proof.Machine

open Sys2Proof.Safety

/-! ### Executing on each arm (R120, R121, R122) -/

section Arms

variable {s : State}

theorem exec_of_undefinedAccess (i : Instr) (h : route s = .undefinedAccess) :
    exec i s = .fault (.undefined s.pc (encode i)) := by
  cases i with
  | mrsVtcrEl2 t => simp only [exec, execMrsVtcrEl2, execMrsVtcrEl2On, h, takeException]
  | msrVtcrEl2 t => simp only [exec, execMsrVtcrEl2, execMsrVtcrEl2On, h, takeException]

theorem exec_of_trapToEl2 (i : Instr) (h : route s = .trapToEl2) :
    exec i s = .fault (.systemAccessTrap .el2 0x18 s.pc (encode i)) := by
  cases i with
  | mrsVtcrEl2 t => simp only [exec, execMrsVtcrEl2, execMrsVtcrEl2On, h, trapToEl2, takeException]
  | msrVtcrEl2 t => simp only [exec, execMsrVtcrEl2, execMsrVtcrEl2On, h, trapToEl2, takeException]

theorem exec_mrs_of_nvmem (t : BitVec 5) (h : route s = .nvmem) :
    exec (.mrsVtcrEl2 t) s = (readNvmem implementation s).andThen fun v => complete (s.writeX t v) := by
  simp only [exec, execMrsVtcrEl2, execMrsVtcrEl2On, h]

theorem exec_msr_of_nvmem (t : BitVec 5) (h : route s = .nvmem) :
    exec (.msrVtcrEl2 t) s = (writeNvmem implementation (s.readX t) s).andThen complete := by
  simp only [exec, execMsrVtcrEl2, execMsrVtcrEl2On, h]

theorem exec_mrs_of_register (t : BitVec 5) (h : route s = .register) :
    exec (.mrsVtcrEl2 t) s = complete (s.writeX t (Vtcr.read implementation s.vtcrEl2)) := by
  simp only [exec, execMrsVtcrEl2, execMrsVtcrEl2On, h]

theorem exec_msr_of_register (t : BitVec 5) (h : route s = .register) :
    exec (.msrVtcrEl2 t) s = complete (s.setVtcr (Vtcr.write implementation s.vtcrEl2 (s.readX t))) := by
  simp only [exec, execMsrVtcrEl2, execMsrVtcrEl2On, h]

end Arms

/-! ### Faults of a redirected access (R133) -/

/-- Completing goes on or is refused (R51). -/
theorem complete_ne_fault (s : State) (e : Fault) : complete s ≠ .fault e := by
  unfold complete
  split <;> exact nofun

/-- A part that is continued without a fault faults itself where the whole does. -/
theorem fault_of_andThen_fault {α β : Type} {r : Result α} {f : α → Result β} {e : Fault}
    (h : r.andThen f = .fault e) (noFault : ∀ a, f a ≠ .fault e) : r = .fault e := by
  cases r with
  | next a => exact (noFault a h).elim
  | fault _ => cases h; rfl
  | refused _ => cases h

theorem eq_nvmemAbsent_of_slotContents {c : Config} {s : State} {e : Fault} (h : slotContents c s = .fault e) :
    e = .nvmemAbsent (slotAddress c) := by
  obtain ⟨bs, found⟩ | absent | text := slotContents_cases c s
  · cases found.symm.trans h
  · cases absent.symm.trans h
    rfl
  · cases text.symm.trans h

theorem eq_nvmemAbsent_of_readNvmem {c : Config} {s : State} {e : Fault} (h : readNvmem c s = .fault e) :
    e = .nvmemAbsent (slotAddress c) :=
  eq_nvmemAbsent_of_slotContents (fault_of_andThen_fault h nofun)

theorem eq_nvmemAbsent_of_writeNvmem {c : Config} {s : State} {v : Word64} {e : Fault}
    (h : writeNvmem c v s = .fault e) : e = .nvmemAbsent (slotAddress c) :=
  eq_nvmemAbsent_of_slotContents (fault_of_andThen_fault h nofun)

/-- The one fault of a redirected access is a missing slot: completing never faults. -/
theorem eq_nvmemAbsent_of_exec_of_redirected {i : Instr} {s : State} {e : Fault} (r : Redirected s)
    (h : exec i s = .fault e) : e = .nvmemAbsent (slotAddress implementation) := by
  have arm := route_eq_nvmem.mpr r
  cases i with
  | mrsVtcrEl2 t =>
    rw [exec_mrs_of_nvmem t arm] at h
    exact eq_nvmemAbsent_of_readNvmem (fault_of_andThen_fault h fun _ => complete_ne_fault _ e)
  | msrVtcrEl2 t =>
    rw [exec_msr_of_nvmem t arm] at h
    exact eq_nvmemAbsent_of_writeNvmem (fault_of_andThen_fault h fun _ => complete_ne_fault _ e)

end Sys2Proof.Machine
end

section
/-! Proofs of the statements about the order of redirection, trap and Undefined. -/

namespace Sys2Proof.Proofs

open Sys2Proof.Machine Sys2Proof.Safety

/-- Settles O19: each clause selects one arm of the access pseudocode, on which executing has its own equation; the
redirected arm's one fault is the missing slot, which is neither exception. -/
theorem redirectionPrecedesTrapPrecedesUndefined : Obligations.RedirectionPrecedesTrapPrecedesUndefined := by
  intro i s
  refine ⟨fun r target code a w => ⟨fun h => ?trapNot, fun h => ?undefinedNot⟩, fun r => ?redirected,
    fun e => ?register, fun el en nv nv2 => ?trap, fun el off => ?undefinedEl1, fun el => ?undefinedEl0⟩
  case trapNot => cases eq_nvmemAbsent_of_exec_of_redirected r h
  case undefinedNot => cases eq_nvmemAbsent_of_exec_of_redirected r h
  case redirected =>
    have arm := route_eq_nvmem.mpr r
    exact ⟨fun t hi => hi ▸ exec_mrs_of_nvmem t arm, fun t hi => hi ▸ exec_msr_of_nvmem t arm⟩
  case register =>
    have arm := route_eq_register.mpr e
    exact ⟨fun t hi => hi ▸ exec_mrs_of_register t arm, fun t hi => hi ▸ exec_msr_of_register t arm⟩
  case trap => exact ⟨_, _, exec_of_trapToEl2 i (route_eq_trapToEl2.mpr ⟨el, en, nv, nv2⟩)⟩
  case undefinedEl1 => exact ⟨_, _, exec_of_undefinedAccess i (route_eq_undefinedAccess.mpr (.inr ⟨el, off⟩))⟩
  case undefinedEl0 => exact ⟨_, _, exec_of_undefinedAccess i (route_eq_undefinedAccess.mpr (.inl el))⟩

end Sys2Proof.Proofs
end

section
/-! Proofs about the decoder: a word decodes to an instruction exactly where it is that instruction's word, and mask and
match finds the same words. -/

namespace Sys2Proof

theorem ofBool_beq_one : ∀ b : BitVec 1, BitVec.ofBool (b == 1#1) = b := by decide

/-- A bit as a field of width 1. -/
theorem ofBool_getLsbD {w : Nat} (v : BitVec w) (i : Nat) : BitVec.ofBool (v.getLsbD i) = v.extractLsb' i 1 := by
  rw [BitVec.getLsbD_eq_extractLsb', ofBool_beq_one]

/-- The word of a move that was read off a word is that word: the fields and the fixed bits leave no bit out (R104). -/
theorem SysMove.word_of_sysMoveOfWord {w : InstrWord} {m : SysMove} (h : sysMoveOfWord w = some m) : m.word = w := by
  unfold sysMoveOfWord at h
  split at h
  · rename_i fixed
    obtain ⟨high, bit20⟩ := fixed
    cases h
    simp only [SysMove.word, ofBool_beq_one]
    rw [← high, ← bit20]
    simp (disch := decide) only [BitVec.extractLsb'_append_extractLsb'_eq_extractLsb']
    exact BitVec.extractLsb'_eq_self
  · cases h

/-- A move that is admitted is the move of the instruction it is read as (R102, R110). -/
theorem Instr.toSysMove_of_instrOfSysMove {m : SysMove} {i : Instr} (h : instrOfSysMove m = some i) :
    i.toSysMove = m := by
  unfold instrOfSysMove at h
  split at h
  · rename_i named
    obtain ⟨op0, op1, crn, crm, op2⟩ := SysMove.wellFormed_iff.mp named
    have o0 : m.o0 = 1#1 := by
      revert op0
      unfold SysMove.op0
      generalize m.o0 = b
      revert b
      decide
    obtain ⟨read, _, _, _, _, _, rt⟩ := m
    subst o0 op1 crn crm op2
    cases read <;> cases h <;> rfl
  · cases h

theorem decodeWord_encode (i : Instr) : decodeWord (encode i) = .ok i := by
  cases i with
  | mrsVtcrEl2 t => exact Laws.RoundTrip.mrsVtcrEl2 t (Instr.wellFormed_eq_true _)
  | msrVtcrEl2 t => exact Laws.RoundTrip.msrVtcrEl2 t (Instr.wellFormed_eq_true _)

/-- What decodes, in one equivalence: the 64 words of R104. -/
theorem decodeWord_eq_ok {w : InstrWord} {i : Instr} : decodeWord w = .ok i ↔ encode i = w := by
  constructor
  · intro h
    unfold decodeWord at h
    split at h
    · rename_i found
      cases h
      obtain ⟨m, fields, named⟩ := Option.bind_eq_some_iff.mp found
      rw [encode, Instr.toSysMove_of_instrOfSysMove named, SysMove.word_of_sysMoveOfWord fields]
    · cases h
  · rintro rfl
    exact decodeWord_encode i

/-- Four bytes that decode do so through their word. -/
theorem decodeWord_of_decodeBytes {b0 b1 b2 b3 : Byte} {bs rest : List Byte} {i : Instr}
    (h : decodeBytes (b0 :: b1 :: b2 :: b3 :: bs) = .ok (i, rest)) : decodeWord (wordOfBytes b0 b1 b2 b3) = .ok i := by
  cases e : decodeWord (wordOfBytes b0 b1 b2 b3) with
  | ok j =>
    simp only [decodeBytes, e] at h
    cases h
    rfl
  | error r => simp [decodeBytes, e] at h

/-- A word that is no instruction's is refused by name (R109). -/
theorem decodeWord_of_no_instr {w : InstrWord} (h : ∀ i, encode i ≠ w) : decodeWord w = .error (.unknownWord w) := by
  cases e : decodeWord w with
  | ok i => exact absurd (decodeWord_eq_ok.mp e) (h i)
  | error r => rw [decodeWord_error e]

/-! ### Mask and match (R110) -/

theorem and_mask_or_rt (w : InstrWord) : w &&& 0xFFFFFFE0#32 ||| (w.extractLsb' 0 5).setWidth 32 = w := by
  have mask : ∀ b : Fin 32, (0xFFFFFFE0#32).getLsbD b = decide (5 ≤ b.val) := by decide
  refine BitVec.eq_of_getLsbD_eq fun b hb => ?_
  rw [BitVec.getLsbD_or, BitVec.getLsbD_and, mask ⟨b, hb⟩, BitVec.getLsbD_setWidth, BitVec.getLsbD_extractLsb']
  by_cases low : b < 5
  · simp [low, hb]
  · simp [low, Nat.le_of_not_lt low]

theorem encode_mrs (t : BitVec 5) : encode (.mrsVtcrEl2 t) = 0xD53C2140#32 ||| t.setWidth 32 := by
  revert t
  decide

theorem encode_msr (t : BitVec 5) : encode (.msrVtcrEl2 t) = 0xD51C2140#32 ||| t.setWidth 32 := by
  revert t
  decide

theorem encode_mrs_and_mask (t : BitVec 5) : encode (.mrsVtcrEl2 t) &&& 0xFFFFFFE0#32 = 0xD53C2140#32 := by
  revert t
  decide

theorem encode_msr_and_mask (t : BitVec 5) : encode (.msrVtcrEl2 t) &&& 0xFFFFFFE0#32 = 0xD51C2140#32 := by
  revert t
  decide

/-- A word that matches under the mask is the pattern with its own low five bits as the operand. -/
theorem encode_mrs_of_match {w : InstrWord} (h : w &&& 0xFFFFFFE0#32 = 0xD53C2140#32) :
    encode (.mrsVtcrEl2 (w.extractLsb' 0 5)) = w := by
  rw [encode_mrs, ← h, and_mask_or_rt]

theorem encode_msr_of_match {w : InstrWord} (h : w &&& 0xFFFFFFE0#32 = 0xD51C2140#32) :
    encode (.msrVtcrEl2 (w.extractLsb' 0 5)) = w := by
  rw [encode_msr, ← h, and_mask_or_rt]

/-- A word that matches neither pattern is refused by name (R109, R110). -/
theorem decodeWord_of_no_match {w : InstrWord} (mrs : w &&& 0xFFFFFFE0#32 ≠ 0xD53C2140#32)
    (msr : w &&& 0xFFFFFFE0#32 ≠ 0xD51C2140#32) : decodeWord w = .error (.unknownWord w) := by
  refine decodeWord_of_no_instr fun i => ?_
  rintro rfl
  cases i with
  | mrsVtcrEl2 t => exact mrs (encode_mrs_and_mask t)
  | msrVtcrEl2 t => exact msr (encode_msr_and_mask t)

end Sys2Proof

namespace Sys2Proof.Proofs

/-- Settles O1: the bytes make up the word again, and the word of an instruction decodes to it. -/
theorem decodingTheBytesOfAnInstruction : Obligations.DecodingTheBytesOfAnInstruction := by
  intro i rest _
  rw [decodeBytes_bytesOfWord, decodeWord_encode]

/-- Settles O2: one direction of the equivalence that says what decodes. -/
theorem onlyAnInstructionsOwnWordDecodes : Obligations.OnlyAnInstructionsOwnWordDecodes :=
  fun _ _ => decodeWord_eq_ok.mp

/-- Settles O3: a word that matches is the word of the instruction with its low five bits, and the words of both
instructions match. -/
theorem decodingByMaskAndMatch : Obligations.DecodingByMaskAndMatch := by
  intro w
  split
  · rename_i mrs
    exact decodeWord_eq_ok.mpr (encode_mrs_of_match mrs)
  · rename_i notMrs
    split
    · rename_i msr
      exact decodeWord_eq_ok.mpr (encode_msr_of_match msr)
    · rename_i notMsr
      exact decodeWord_of_no_match notMrs notMsr

/-- Settles O5: the first two words are those of their instructions, and the neighbours match neither pattern. -/
theorem writtenOutWordsDecode : Obligations.WrittenOutWordsDecode :=
  ⟨decodeWord_encode (.mrsVtcrEl2 5), decodeWord_encode (.msrVtcrEl2 31),
    decodeWord_of_no_match (by decide) (by decide), decodeWord_of_no_match (by decide) (by decide)⟩

end Sys2Proof.Proofs
end

section
/-! Proofs about fetching and stepping: what a step does at four bytes of program text, and that a step that goes on has
run the instruction it fetched. -/

namespace Sys2Proof.Machine

open Sys2Proof.Safety

/-- Four bytes, one by one. -/
theorem Memory.readBytes_four_eq_some {m : Memory} {k : Nat} {b0 b1 b2 b3 : Byte} :
    m.readBytes k 4 = some [b0, b1, b2, b3] ↔
      m.read k = some b0 ∧ m.read (k + 1) = some b1 ∧ m.read (k + 2) = some b2 ∧ m.read (k + 3) = some b3 := by
  rw [Memory.readBytes_eq_some]
  constructor
  · rintro ⟨-, all⟩
    exact ⟨all 0 (by simp), all 1 (by simp), all 2 (by simp), all 3 (by simp)⟩
  · rintro ⟨h0, h1, h2, h3⟩
    refine ⟨rfl, fun i hi => ?_⟩
    match i, hi with
    | 0, _ => exact h0
    | 1, _ => exact h1
    | 2, _ => exact h2
    | 3, _ => exact h3

/-- Bytes just written are read back. -/
theorem Memory.readBytes_writeBytes (m : Memory) (k : Nat) (bs : List Byte) :
    (m.writeBytes k bs).readBytes k bs.length = some bs := by
  refine Memory.readBytes_eq_some.mpr ⟨rfl, fun i hi => ?_⟩
  rw [Memory.read_writeBytes, dif_pos ⟨by omega, by omega⟩]
  simp

theorem fetchesBytes_iff {s : State} {b0 b1 b2 b3 : Byte} :
    FetchesBytes s b0 b1 b2 b3 ↔ s.pc.toNat % 4 = 0 ∧ fetch s = some [b0, b1, b2, b3] := by
  rw [FetchesBytes, fetch, Memory.readBytes_four_eq_some]

/-- A step at four bytes runs the instruction they decode to. -/
theorem step_of_runs {s : State} {i : Instr} (h : Runs s i) : step s = exec i s := by
  obtain ⟨b0, b1, b2, b3, fetches, decodes⟩ := h
  obtain ⟨aligned, fetched⟩ := fetchesBytes_iff.mp fetches
  simp [step, aligned, fetched, decodeBytes, decodes]

/-- A step at four bytes that are no instruction's is refused by name (R109). -/
theorem step_of_unknownWord {s : State} {b0 b1 b2 b3 : Byte} {w : InstrWord} (h : FetchesBytes s b0 b1 b2 b3)
    (unknown : decodeWord (wordOfBytes b0 b1 b2 b3) = .error (.unknownWord w)) :
    step s = .refused (.unknownWord s.pc w) := by
  obtain ⟨aligned, fetched⟩ := fetchesBytes_iff.mp h
  simp [step, aligned, fetched, decodeBytes, unknown]

theorem step_of_fetch_none {s : State} (aligned : s.pc.toNat % 4 = 0) (absent : fetch s = none) :
    step s = .fault (.textAbsent s.pc) := by
  simp [step, aligned, absent]

theorem step_of_misaligned {s : State} (h : s.pc.toNat % 4 ≠ 0) : step s = .refused (.pcMisaligned s.pc) :=
  if_neg h

/-- A step that goes on has run the instruction at the PC: the inversion every claim about steps rests on. -/
theorem exists_runs_of_step {s t : State} (h : step s = .next t) : ∃ i, Runs s i ∧ exec i s = .next t := by
  obtain ⟨aligned, bytes, i, rest, fetched, decoded, ran⟩ := step_eq_next.mp h
  obtain ⟨four, -⟩ := Memory.readBytes_eq_some.mp fetched
  match bytes, four with
  | [b0, b1, b2, b3], _ =>
    exact ⟨i, ⟨b0, b1, b2, b3, fetchesBytes_iff.mpr ⟨aligned, fetched⟩, decodeWord_of_decodeBytes decoded⟩, ran⟩

/-! ### A placed word (log 11) -/

theorem tableBytes_encode (i : Instr) : tableBytes 32 (encode i).toNat = bytesOfWord (encode i) := by
  rw [tableBytes, Nat.mod_eq_of_lt (encode i).isLt, BitVec.ofNat_toNat, BitVec.setWidth_eq]

theorem fetch_withFetchWord_encode (s : State) (i : Instr) :
    fetch (s.withFetchWord 32 (encode i).toNat) = some (bytesOfWord (encode i)) := by
  rw [State.withFetchWord, tableBytes_encode]
  exact Memory.readBytes_writeBytes s.text s.pc.toNat (bytesOfWord (encode i))

theorem runs_withFetchWord_encode {s : State} (i : Instr) (aligned : s.pc.toNat % 4 = 0) :
    Runs (s.withFetchWord 32 (encode i).toNat) i := by
  refine ⟨_, _, _, _, fetchesBytes_iff.mpr ⟨aligned, fetch_withFetchWord_encode s i⟩, ?_⟩
  rw [wordOfBytes_bytes, decodeWord_encode]

end Sys2Proof.Machine

namespace Sys2Proof.Proofs

open Sys2Proof.Machine Sys2Proof.Safety

/-- Settles O6. -/
theorem stepRunsTheDecodedInstruction : Obligations.StepRunsTheDecodedInstruction :=
  fun _ _ => step_of_runs

/-- Settles O7: a word that matches neither pattern decodes to its own refusal, which the step passes on. -/
theorem stepRefusesEveryOtherWord : Obligations.StepRefusesEveryOtherWord :=
  fun _ _ _ _ _ fetches notMrs notMsr => step_of_unknownWord fetches (decodeWord_of_no_match notMrs notMsr)

/-- Settles O8: one absent byte is enough for the fetch to find no instruction. -/
theorem stepStopsWithoutAnInstruction : Obligations.StepStopsWithoutAnInstruction :=
  fun _ => ⟨fun aligned absent => step_of_fetch_none aligned (Memory.readBytes_eq_none.mpr absent), step_of_misaligned⟩

/-- Settles O9: a placed word is fetched from where it was written. -/
theorem aPlacedWordIsRunNext : Obligations.APlacedWordIsRunNext :=
  fun _ i aligned => step_of_runs (runs_withFetchWord_encode i aligned)

end Sys2Proof.Proofs
end

section
/-! Proofs about the operations the instructions share: writing a register or memory a second time, completing, and
what an instruction that goes on has done. -/

namespace Sys2Proof.Machine

open Sys2Proof.Safety

/-! ### Writing twice -/

theorem Memory.write_write_same (m : Memory) (k : Nat) (v : Byte) : (m.write k v).write k v = m.write k v := by
  induction m with
  | nil => simp [Memory.write]
  | cons c m ih =>
    obtain ⟨a, b⟩ := c
    by_cases below : k < a
    · simp [Memory.write, below]
    · by_cases here : k = a
      · simp [Memory.write, here]
      · simp [Memory.write, below, here, ih]

/-- Writes at two addresses may change places, whatever the form of the memory. -/
theorem Memory.write_comm (m : Memory) {j k : Nat} (v w : Byte) (h : j < k) :
    (m.write j v).write k w = (m.write k w).write j v := by
  have apart : ¬ k < j ∧ ¬ k = j ∧ ¬ j = k := by omega
  induction m with
  | nil => simp [Memory.write, h, apart]
  | cons c m ih =>
    obtain ⟨a, b⟩ := c
    by_cases ja : j < a
    · by_cases ka : k < a
      · simp [Memory.write, ja, ka, h, apart]
      · by_cases ka' : k = a
        · subst ka'
          simp [Memory.write, h, apart]
        · simp [Memory.write, ja, ka, ka', apart]
    · have ka : ¬ k < a := by omega
      by_cases ja' : j = a
      · subst ja'
        simp [Memory.write, apart]
      · have ka' : ¬ k = a := by omega
        simp [Memory.write, ja, ja', ka, ka', ih]

theorem Memory.write_writeBytes_comm (m : Memory) {j k : Nat} (v : Byte) (bs : List Byte) (h : j < k) :
    (m.writeBytes k bs).write j v = (m.write j v).writeBytes k bs := by
  induction bs generalizing m k with
  | nil => rfl
  | cons b bs ih =>
    rw [Memory.writeBytes, Memory.writeBytes, ih _ (by omega), Memory.write_comm m v b h]

/-- Writing the same bytes a second time changes nothing (R88). -/
theorem Memory.writeBytes_writeBytes_same (m : Memory) (k : Nat) (bs : List Byte) :
    (m.writeBytes k bs).writeBytes k bs = m.writeBytes k bs := by
  induction bs generalizing m k with
  | nil => rfl
  | cons b bs ih =>
    rw [Memory.writeBytes, Memory.writeBytes, Memory.write_writeBytes_comm _ b bs (by omega),
      Memory.write_write_same, ih]

theorem State.writeX_writeX_same (s : State) (t : BitVec 5) (v : Word64) :
    (s.writeX t v).writeX t v = s.writeX t v := by
  unfold State.writeX
  split
  · simp
  · rfl

/-! ### The PC beside the other updates -/

theorem State.setPc_self (s : State) : s.setPc s.pc = s := rfl

@[simp] theorem State.setPc_setPc (s : State) (p q : Word64) : (s.setPc p).setPc q = s.setPc q := rfl

theorem State.writeX_setVtcr (s : State) (t : BitVec 5) (v w : Word64) :
    (s.setVtcr v).writeX t w = (s.writeX t w).setVtcr v := by
  unfold State.writeX
  split <;> rfl

/-- A write to a register changes the registers alone. -/
theorem State.writeX_eq (s : State) (t : BitVec 5) (v : Word64) : s.writeX t v = { s with x := (s.writeX t v).x } := by
  unfold State.writeX
  split <;> rfl

theorem toNat_pc_add_four {s : State} (h : s.pc.toNat + 4 < 2 ^ 64) : (s.pc + 4).toNat = s.pc.toNat + 4 :=
  BitVec.toNat_add_of_lt h

/-! ### Completing -/

theorem complete_eq_refused {s : State} {r : Refusal} :
    complete s = .refused r ↔ 2 ^ 64 ≤ s.pc.toNat + 4 ∧ r = .pcOverflow s.pc := by
  unfold complete
  split
  · rename_i room
    exact ⟨nofun, fun h => absurd room (Nat.not_lt.mpr h.1)⟩
  · rename_i full
    exact ⟨fun h => ⟨Nat.not_lt.mp full, (Host.Outcome.refused.inj h).symm⟩, fun h => by rw [h.2]⟩

/-! ### Each arm with the outcome of its access -/

section Arms

variable {s : State} {t : BitVec 5}

theorem exec_mrs_of_slot {bs : List Byte} (r : Redirected s) (found : slotContents implementation s = .next bs) :
    exec (.mrsVtcrEl2 t) s = complete (s.writeX t (slotValue implementation.nvmemBigEndian bs)) := by
  rw [exec_mrs_of_nvmem t (route_eq_nvmem.mpr r), readNvmem, found]
  rfl

theorem exec_msr_of_slot {bs : List Byte} (r : Redirected s) (found : slotContents implementation s = .next bs) :
    exec (.msrVtcrEl2 t) s = complete (s.setMem (s.mem.writeBytes (slotAddress implementation)
      (slotBytes implementation.nvmemBigEndian (s.readX t)))) := by
  rw [exec_msr_of_nvmem t (route_eq_nvmem.mpr r), writeNvmem, found]
  rfl

theorem exec_of_slot_fault {i : Instr} {e : Fault} (r : Redirected s)
    (stuck : slotContents implementation s = .fault e) : exec i s = .fault e := by
  cases i with
  | mrsVtcrEl2 t => rw [exec_mrs_of_nvmem t (route_eq_nvmem.mpr r), readNvmem, stuck]; rfl
  | msrVtcrEl2 t => rw [exec_msr_of_nvmem t (route_eq_nvmem.mpr r), writeNvmem, stuck]; rfl

theorem exec_of_slot_refused {i : Instr} {e : Refusal} (r : Redirected s)
    (stop : slotContents implementation s = .refused e) : exec i s = .refused e := by
  cases i with
  | mrsVtcrEl2 t => rw [exec_mrs_of_nvmem t (route_eq_nvmem.mpr r), readNvmem, stop]; rfl
  | msrVtcrEl2 t => rw [exec_msr_of_nvmem t (route_eq_nvmem.mpr r), writeNvmem, stop]; rfl

/-- Where the access is admitted, executing is completing in a state with the PC of this one. -/
theorem exec_eq_complete (i : Instr) (h : AtEl2OrEl3 s ∨ (Redirected s ∧ NvmemAdmitted implementation s)) :
    ∃ r, exec i s = complete r ∧ r.pc = s.pc := by
  rcases h with e | ⟨r, admitted⟩
  · have arm := route_eq_register.mpr e
    cases i with
    | mrsVtcrEl2 t => exact ⟨_, exec_mrs_of_register t arm, State.writeX_pc ..⟩
    | msrVtcrEl2 t => exact ⟨_, exec_msr_of_register t arm, rfl⟩
  · obtain ⟨bs, found, -⟩ := slotContents_of_admitted admitted
    cases i with
    | mrsVtcrEl2 t => exact ⟨_, exec_mrs_of_slot r found, State.writeX_pc ..⟩
    | msrVtcrEl2 t => exact ⟨_, exec_msr_of_slot r found, rfl⟩

end Arms

/-! ### What an instruction that goes on has done, on each arm -/

/-- The work an instruction that goes on has done before the PC moves: MRS wrote its register, MSR wrote VTCR_EL2 or the
slot. -/
inductive Effect (s : State) : Instr → State → Prop
  | mrsRegister (t : BitVec 5) (arm : AtEl2OrEl3 s) :
      Effect s (.mrsVtcrEl2 t) (s.writeX t (Vtcr.read implementation s.vtcrEl2))
  | mrsSlot (t : BitVec 5) (arm : Redirected s) (bs : List Byte) (found : slotContents implementation s = .next bs) :
      Effect s (.mrsVtcrEl2 t) (s.writeX t (slotValue implementation.nvmemBigEndian bs))
  | msrRegister (t : BitVec 5) (arm : AtEl2OrEl3 s) :
      Effect s (.msrVtcrEl2 t) (s.setVtcr (Vtcr.write implementation s.vtcrEl2 (s.readX t)))
  | msrSlot (t : BitVec 5) (arm : Redirected s) (bs : List Byte) (found : slotContents implementation s = .next bs) :
      Effect s (.msrVtcrEl2 t) (s.setMem (s.mem.writeBytes (slotAddress implementation)
        (slotBytes implementation.nvmemBigEndian (s.readX t))))

theorem Effect.exec_eq_complete {s r : State} {i : Instr} (h : Effect s i r) : exec i s = complete r := by
  cases h with
  | mrsRegister t arm => exact exec_mrs_of_register t (route_eq_register.mpr arm)
  | mrsSlot t arm bs found => exact exec_mrs_of_slot arm found
  | msrRegister t arm => exact exec_msr_of_register t (route_eq_register.mpr arm)
  | msrSlot t arm bs found => exact exec_msr_of_slot arm found

theorem Effect.pc_eq {s r : State} {i : Instr} (h : Effect s i r) : r.pc = s.pc := by
  cases h <;> simp

/-- Executing goes on exactly with the work of the instruction done and the PC moved on, where it has room. -/
theorem exec_eq_next {i : Instr} {s t : State} :
    exec i s = .next t ↔ s.pc.toNat + 4 < 2 ^ 64 ∧ ∃ r, Effect s i r ∧ t = r.setPc (s.pc + 4) := by
  constructor
  · intro h
    cases i with
    | mrsVtcrEl2 n =>
      obtain ⟨room, ⟨arm, rfl⟩ | ⟨arm, free, bs, held, rfl⟩⟩ := execMrsVtcrEl2On_next h
      · exact ⟨room, _, .mrsRegister n (route_eq_register.mp arm), rfl⟩
      · exact ⟨room, _, .mrsSlot n (route_eq_nvmem.mp arm) bs (slotContents_eq_next.mpr ⟨free, held⟩), rfl⟩
    | msrVtcrEl2 n =>
      obtain ⟨room, ⟨arm, rfl⟩ | ⟨arm, free, held, rfl⟩⟩ := execMsrVtcrEl2On_next h
      · exact ⟨room, _, .msrRegister n (route_eq_register.mp arm), rfl⟩
      · obtain ⟨bs, held⟩ := Option.isSome_iff_exists.mp held
        exact ⟨room, _, .msrSlot n (route_eq_nvmem.mp arm) bs (slotContents_eq_next.mpr ⟨free, held⟩), rfl⟩
  · rintro ⟨room, r, effect, rfl⟩
    rw [effect.exec_eq_complete, complete_eq_next, effect.pc_eq]
    exact ⟨room, rfl⟩

end Sys2Proof.Machine
end

section
/-! Proofs about the bits of VTCR_EL2: which are RW, what a write and a read do to each, the granule in effect, and
which values hold the constants. -/

namespace Sys2Proof.Machine

open Sys2Proof.Safety

/-! ### Kinds, range by range (R21, R47) -/

theorem Vtcr.kind_of_noEl2 {c : Config} (h : c.haveEl2 = false) (b : Nat) : Vtcr.kind c b = .res0 := if_pos h

section Kinds

variable {c : Config} (el2 : c.haveEl2 = true)
include el2

theorem Vtcr.kind_of_le_18 {b : Nat} (h : b ≤ 18) : Vtcr.kind c b = .rw := by
  simp (disch := omega) [Vtcr.kind, el2, if_neg]

theorem Vtcr.kind_19 : Vtcr.kind c 19 = if c.haveVmid16 then .rw else .res0 := by
  simp [Vtcr.kind, el2]

theorem Vtcr.kind_of_21_22 {b : Nat} (h : 21 ≤ b ∧ b ≤ 22) : Vtcr.kind c b = if c.haveTthm then .rw else .res0 := by
  simp (disch := omega) [Vtcr.kind, el2, if_neg, if_pos]

theorem Vtcr.kind_of_25_28 {b : Nat} (h : 25 ≤ b ∧ b ≤ 28) : Vtcr.kind c b = if c.haveTtpbha then .rw else .res0 := by
  simp (disch := omega) [Vtcr.kind, el2, if_neg, if_pos]

theorem Vtcr.kind_of_29_30 {b : Nat} (h : 29 ≤ b ∧ b ≤ 30) : Vtcr.kind c b = if c.fromArmv84 then .rw else .res0 := by
  simp (disch := omega) [Vtcr.kind, el2, if_neg, if_pos]

theorem Vtcr.kind_31 : Vtcr.kind c 31 = .res1 := by
  simp [Vtcr.kind, el2]

theorem Vtcr.kind_of_reserved {b : Nat} (h : b = 20 ∨ b = 23 ∨ b = 24 ∨ 32 ≤ b) : Vtcr.kind c b = .res0 := by
  obtain rfl | rfl | rfl | high := h
  · simp [Vtcr.kind, el2]
  · simp [Vtcr.kind, el2]
  · simp [Vtcr.kind, el2]
  · simp [Vtcr.kind, el2, high]

end Kinds
/-- The positions of the fields that exist, as the masks write them. -/
theorem Vtcr.getLsbD_rwMask_of_el2 {c : Config} (el2 : c.haveEl2 = true) {b : Nat} (hb : b < 64) :
    (Vtcr.rwMask c).getLsbD b = true ↔
      b ≤ 18 ∨ (c.fromArmv84 = true ∧ 29 ≤ b ∧ b ≤ 30) ∨ (c.haveTtpbha = true ∧ 25 ≤ b ∧ b ≤ 28) ∨
        (c.haveTthm = true ∧ 21 ≤ b ∧ b ≤ 22) ∨ (c.haveVmid16 = true ∧ b = 19) := by
  have masks : ∀ b : Fin 64, (0x7FFFF#64).getLsbD b = decide (b.val ≤ 18) ∧
      (0x80000#64).getLsbD b = decide (b.val = 19) ∧
      (0x600000#64).getLsbD b = decide (21 ≤ b.val ∧ b.val ≤ 22) ∧
      (0x1E000000#64).getLsbD b = decide (25 ≤ b.val ∧ b.val ≤ 28) ∧
      (0x60000000#64).getLsbD b = decide (29 ≤ b.val ∧ b.val ≤ 30) := by decide
  have field : ∀ (p : Bool) (m : Word64), (if p then m else 0).getLsbD b = (p && m.getLsbD b) := by
    rintro (_ | _) m
    · exact BitVec.getLsbD_zero
    · exact (Bool.true_and _).symm
  obtain ⟨m0, m19, m21, m25, m29⟩ := masks ⟨b, hb⟩
  rw [Vtcr.rwMask, if_pos el2]
  simp only [BitVec.getLsbD_or, field, m0, m19, m21, m25, m29, Bool.or_eq_true, Bool.and_eq_true, decide_eq_true_eq,
    or_assoc]

/-- The mask of RW bits is the kind of every bit (R21). -/
theorem Vtcr.getLsbD_rwMask (c : Config) {b : Nat} (hb : b < 64) :
    (Vtcr.rwMask c).getLsbD b = true ↔ Vtcr.kind c b = .rw := by
  cases el2 : c.haveEl2 with
  | false => simp [Vtcr.rwMask, Vtcr.kind_of_noEl2 el2, el2]
  | true =>
    have field : ∀ p : Bool, (if p = true then BitKind.rw else .res0) = .rw ↔ p = true := by decide
    rw [Vtcr.getLsbD_rwMask_of_el2 el2 hb]
    obtain h | rfl | h | h | h | rfl | h : b ≤ 18 ∨ b = 19 ∨ (21 ≤ b ∧ b ≤ 22) ∨ (25 ≤ b ∧ b ≤ 28) ∨
      (29 ≤ b ∧ b ≤ 30) ∨ b = 31 ∨ (b = 20 ∨ b = 23 ∨ b = 24 ∨ 32 ≤ b) := by omega
    · simp [Vtcr.kind_of_le_18 el2 h, h]
    · simp [Vtcr.kind_19 el2, field]
    · rw [Vtcr.kind_of_21_22 el2 h, field]
      grind
    · rw [Vtcr.kind_of_25_28 el2 h, field]
      grind
    · rw [Vtcr.kind_of_29_30 el2 h, field]
      grind
    · simp [Vtcr.kind_31 el2]
    · rw [Vtcr.kind_of_reserved el2 h]
      simp
      omega

/-- The bits that store: RW, or reserved and stored (R43). -/
theorem Vtcr.getLsbD_storeMask (c : Config) {b : Nat} (hb : b < 64) :
    (Vtcr.storeMask c).getLsbD b = true ↔ Vtcr.kind c b = .rw ∨ c.resStored.getLsbD b = true := by
  rw [Vtcr.storeMask, BitVec.getLsbD_or, Bool.or_eq_true, Vtcr.getLsbD_rwMask c hb]

/-! ### Writing (R44) -/

/-- What a write does to one bit, by its kind. -/
theorem Vtcr.getLsbD_write_kind (c : Config) (old v : Word64) {b : Nat} (hb : b < 64) :
    (Vtcr.write c old v).getLsbD b =
      if Vtcr.kind c b = .rw ∨ c.resStored.getLsbD b = true then v.getLsbD b else old.getLsbD b := by
  rw [Vtcr.getLsbD_write c old v b hb]
  simp only [Vtcr.getLsbD_storeMask c hb]

/-- A write onto the constants: what reset leaves, and what a write leaves in a state whose hardwired bits hold. -/
theorem Vtcr.getLsbD_write_of_hold {c : Config} {old : Word64} (hold : ReservedBitsHold c old) (v : Word64) {b : Nat}
    (hb : b < 64) :
    (Vtcr.write c old v).getLsbD b =
      if Vtcr.kind c b = .rw ∨ c.resStored.getLsbD b = true then v.getLsbD b else (Vtcr.kind c b).constant := by
  rw [Vtcr.getLsbD_write_kind c old v hb]
  split
  · rfl
  · rename_i fixed
    exact hold b hb (fun rw => fixed (.inl rw)) (by simpa using fun stored => fixed (.inr stored))

/-- No write moves a hardwired bit. -/
theorem Vtcr.reservedBitsHold_write {c : Config} {old : Word64} (hold : ReservedBitsHold c old) (v : Word64) :
    ReservedBitsHold c (Vtcr.write c old v) := by
  intro b hb notRw notStored
  rw [Vtcr.getLsbD_write_of_hold hold v hb, if_neg (by simp [notRw, notStored])]

theorem Vtcr.reservedBitsHold_constants (c : Config) : ReservedBitsHold c (Vtcr.constants c) :=
  fun b hb _ _ => Vtcr.getLsbD_constants c b hb

/-- Writing the same value a second time changes nothing. -/
theorem Vtcr.write_write_same (c : Config) (old v : Word64) :
    Vtcr.write c (Vtcr.write c old v) v = Vtcr.write c old v := by
  refine BitVec.eq_of_getLsbD_eq fun b hb => ?_
  rw [Vtcr.getLsbD_write c _ v b hb, Vtcr.getLsbD_write c old v b hb]
  split <;> rfl

/-- With EL2 implemented TG0 is a field, so a write stores it. -/
theorem Vtcr.tg0_write {c : Config} (el2 : c.haveEl2 = true) (old v : Word64) :
    Vtcr.tg0 (Vtcr.write c old v) = Vtcr.tg0 v := by
  refine BitVec.eq_of_getLsbD_eq fun b hb => ?_
  simp only [Vtcr.tg0, BitVec.getLsbD_extractLsb', hb, decide_true, Bool.true_and]
  rw [Vtcr.getLsbD_write_kind c old v (by omega), if_pos (.inl (Vtcr.kind_of_le_18 el2 (by omega)))]

/-! ### The granule in effect (R70) -/

theorem Vtcr.implementedGranule_eq_none {c : Config} {tg0 : BitVec 2} :
    Vtcr.implementedGranule c tg0 = none ↔ ∀ g, Vtcr.granuleOf tg0 = some g → c.granules.has g = false := by
  simp [Vtcr.implementedGranule, Option.filter_eq_none_iff]

theorem Vtcr.implementedGranule_eq_some {c : Config} {tg0 : BitVec 2} {g : Granule} :
    Vtcr.implementedGranule c tg0 = some g ↔ Vtcr.granuleOf tg0 = some g ∧ c.granules.has g = true := by
  simp [Vtcr.implementedGranule, Option.filter_eq_some_iff]

theorem Vtcr.effTg0_of_implemented {c : Config} {v : Word64} {g : Granule}
    (h : Vtcr.implementedGranule c (Vtcr.tg0 v) = some g) : Vtcr.effTg0 c v = g := by
  rw [Vtcr.effTg0, h, Option.getD_some]

theorem Vtcr.effTg0_of_not_implemented {c : Config} {v : Word64}
    (h : Vtcr.implementedGranule c (Vtcr.tg0 v) = none) : Vtcr.effTg0 c v = c.tg0Fallback (Vtcr.tg0 v) := by
  rw [Vtcr.effTg0, h, Option.getD_none]

/-- The granule in effect is a function of TG0. -/
theorem Vtcr.effTg0_congr (c : Config) {v w : Word64} (h : Vtcr.tg0 v = Vtcr.tg0 w) :
    Vtcr.effTg0 c v = Vtcr.effTg0 c w := by
  rw [Vtcr.effTg0, Vtcr.effTg0, h]

/-! ### Reading (R44) -/

/-- TG0 reads back as the granule in effect (R44): the implementation does so, and the programmed one is not there. -/
def Vtcr.ReadsBackEffective (c : Config) (v : Word64) : Prop :=
  c.haveEl2 = true ∧ c.tg0ReadbackEffective = true ∧ Vtcr.implementedGranule c (Vtcr.tg0 v) = none

theorem Vtcr.read_of_readsBackEffective {c : Config} {v : Word64} (h : Vtcr.ReadsBackEffective c v) :
    Vtcr.read c v = Vtcr.withTg0 v (Vtcr.encodingOf (Vtcr.effTg0 c v)) := if_pos h

theorem Vtcr.read_of_not_readsBackEffective {c : Config} {v : Word64} (h : ¬ Vtcr.ReadsBackEffective c v) :
    Vtcr.read c v = v := if_neg h

@[simp] theorem Vtcr.tg0_withTg0 (v : Word64) (g : BitVec 2) : Vtcr.tg0 (Vtcr.withTg0 v g) = g := by
  refine BitVec.eq_of_getLsbD_eq fun b hb => ?_
  rw [Vtcr.tg0, BitVec.getLsbD_extractLsb', Vtcr.getLsbD_withTg0 v g _ (by omega), if_pos (by omega)]
  simp [hb]

end Sys2Proof.Machine

namespace Sys2Proof.Proofs

open Sys2Proof.Machine Sys2Proof.Safety

/-- Settles O39: the bits that store are those the mask of the model's write holds. -/
theorem writeIsTheLoopOverTheBits : Obligations.WriteIsTheLoopOverTheBits :=
  fun c old v _ hb => Vtcr.getLsbD_write_kind c old v hb

/-- Settles O38, range by range of the table of R21. -/
theorem theKindOfEveryBit : Obligations.TheKindOfEveryBit := by
  intro c el2 field
  refine ⟨fun b low _ => ?upper, Vtcr.kind_31 el2, fun b h => ?nsaNsw, fun b low high => ?hwu, fun b h => ?res0,
    fun b h => ?hdHa, Vtcr.kind_19 el2, fun b h => Vtcr.kind_of_le_18 el2 h⟩
  case upper => exact Vtcr.kind_of_reserved el2 (by omega)
  case nsaNsw => exact Vtcr.kind_of_29_30 el2 (by omega)
  case hwu => exact Vtcr.kind_of_25_28 el2 ⟨low, high⟩
  case res0 => exact Vtcr.kind_of_reserved el2 (by omega)
  case hdHa => exact Vtcr.kind_of_21_22 el2 (by omega)

/-- Settles O37: a one-bit field is a field of width 1, and adjacent fields join into one. -/
theorem theFieldsMakeUpTheRegister : Obligations.TheFieldsMakeUpTheRegister := by
  intro v
  simp (disch := decide) only [Vtcr.nsa, Vtcr.nsw, Vtcr.hwu62, Vtcr.hwu61, Vtcr.hwu60, Vtcr.hwu59, Vtcr.hd, Vtcr.ha,
    Vtcr.vs, Vtcr.ps, Vtcr.tg0, Vtcr.sh0, Vtcr.orgn0, Vtcr.irgn0, Vtcr.sl0, Vtcr.t0sz, ofBool_getLsbD,
    BitVec.extractLsb'_append_extractLsb'_eq_extractLsb']
  exact BitVec.extractLsb'_eq_self.symm

/-- Settles O40: a read replaces TG0 alone, and only where the implementation reads back the granule chosen. -/
theorem readIsTheStoredValueButForTg0 : Obligations.ReadIsTheStoredValueButForTg0 := by
  intro c v el2
  refine ⟨fun b hb h14 h15 => Vtcr.getLsbD_read_of_ne c v hb h14 h15, ?_⟩
  simp only [← Vtcr.implementedGranule_eq_none]
  split
  · rename_i h
    rw [Vtcr.read_of_readsBackEffective ⟨el2, h⟩, Vtcr.tg0_withTg0]
  · rename_i h
    rw [Vtcr.read_of_not_readsBackEffective fun r => h r.2]

/-- Settles O44: both granules that can be in effect are implemented, the fallback by the constraint of R70. -/
theorem theGranuleInEffectIsImplemented : Obligations.TheGranuleInEffectIsImplemented := by
  intro c v
  refine ⟨?implemented, fun g named there => ?programmed, fun absent => ?fallback⟩
  case implemented =>
    cases e : Vtcr.implementedGranule c (Vtcr.tg0 v) with
    | none =>
      rw [Vtcr.effTg0_of_not_implemented e]
      exact c.tg0Fallback_implemented _
    | some g =>
      rw [Vtcr.effTg0_of_implemented e]
      exact (Vtcr.implementedGranule_eq_some.mp e).2
  case programmed => exact Vtcr.effTg0_of_implemented (Vtcr.implementedGranule_eq_some.mpr ⟨named, there⟩)
  case fallback => exact Vtcr.effTg0_of_not_implemented (Vtcr.implementedGranule_eq_none.mpr absent)

/-- Settles O28: reset writes the draw onto the constants. -/
theorem resetDrawsTheBitsThatStore : Obligations.ResetDrawsTheBitsThatStore :=
  fun c draw _ hb => Vtcr.getLsbD_write_of_hold (Vtcr.reservedBitsHold_constants c) draw hb

/-- Settles O27: the constants hold and the draw's write keeps them; the rest is the configuration's constraints and
empty memories. -/
theorem resetEstablishesTheInvariant : Obligations.ResetEstablishesTheInvariant := by
  have onAny : ∀ (c : Config) (draw : Word64), Inv c (State.resetOn c draw) := fun c draw =>
    { reserved := Vtcr.reservedBitsHold_write (Vtcr.reservedBitsHold_constants c) draw
      levels := ⟨c.resetEl_implemented.1, c.resetEl_implemented.2, nofun⟩
      pc := c.resetPc_aligned
      mem := ⟨.nil, nofun⟩
      text := ⟨.nil, nofun⟩ }
  exact ⟨onAny, onAny implementation Config.vtcrResetDraw⟩

/-- Settles O29: all but the registers are read off the reset state. -/
theorem resetValuesTheModelChose : Obligations.ResetValuesTheModelChose := by
  have registers : ∀ t, State.reset.readX t = 0 := by
    intro t
    unfold State.readX
    split
    · exact Vector.getElem_replicate _
    · rfl
  exact ⟨rfl, rfl, registers, rfl, rfl, rfl, rfl, rfl, rfl, rfl, rfl, rfl⟩

/-- Settles O41: without EL2 no bit is RW and every constant is 0, a read is the stored value, and `EL2Enabled()` is
false, which selects the Undefined arm at EL1. -/
theorem withoutEl2TheRegisterIsRes0 : Obligations.WithoutEl2TheRegisterIsRes0 := by
  intro c noEl2
  refine ⟨fun old v hold b hb => ?bits, fun s t legal el1 => ?arms⟩
  case bits =>
    have plain : ¬ Vtcr.ReadsBackEffective c (Vtcr.write c old v) := fun h => Bool.false_ne_true (noEl2.symm.trans h.1)
    rw [Vtcr.read_of_not_readsBackEffective plain, Vtcr.getLsbD_write_of_hold hold v hb, Vtcr.kind_of_noEl2 noEl2]
    cases c.resStored.getLsbD b <;> simp [BitKind.constant]
  case arms =>
    obtain ⟨-, -, enabled⟩ := legal
    have off : ¬ (s.el2Enabled = true ∧ s.hcrNv = true) :=
      fun h => Bool.false_ne_true (noEl2.symm.trans (enabled h.1))
    have arm : route s = .undefinedAccess := route_eq_undefinedAccess.mpr (.inr ⟨el1, off⟩)
    simp only [execMrsVtcrEl2On, execMsrVtcrEl2On, arm, takeException, and_self]

end Sys2Proof.Proofs
end

section
/-! Proofs of the statements about where the two instructions complete, and their frames. -/

namespace Sys2Proof.Machine

open Sys2Proof.Safety

theorem not_redirected_of_atEl2OrEl3 {s : State} (h : AtEl2OrEl3 s) : ¬ Redirected s := by
  intro r
  cases (route_eq_register.mpr h).symm.trans (route_eq_nvmem.mpr r)

/-- With room for the PC an instruction goes on once its work is done. -/
theorem exec_of_effect {i : Instr} {s r : State} (room : PcHasRoom s) (h : Effect s i r) :
    exec i s = .next (r.setPc (s.pc + 4)) :=
  exec_eq_next.mpr ⟨room, r, h, rfl⟩

/-! ### What the work of an instruction leaves as it was -/

section Frame

variable {i : Instr} {s r t : State}

theorem Effect.vtcrEl2_eq (h : Effect s i r) :
    (AtEl2OrEl3 s ∧ ∃ n, i = .msrVtcrEl2 n) ∨ r.vtcrEl2 = s.vtcrEl2 := by
  cases h with
  | mrsRegister t arm => exact .inr (State.writeX_vtcrEl2 ..)
  | mrsSlot t arm bs found => exact .inr (State.writeX_vtcrEl2 ..)
  | msrRegister t arm => exact .inl ⟨arm, t, rfl⟩
  | msrSlot t arm bs found => exact .inr rfl

theorem Effect.read_mem_eq (h : Effect s i r) (a : Nat) :
    (Redirected s ∧ (∃ n, i = .msrVtcrEl2 n) ∧ slotAddress implementation ≤ a ∧ a < slotAddress implementation + 8) ∨
      r.mem.read a = s.mem.read a := by
  cases h with
  | mrsRegister t arm => exact .inr (by rw [State.writeX_mem])
  | mrsSlot t arm bs found => exact .inr (by rw [State.writeX_mem])
  | msrRegister t arm => exact .inr rfl
  | msrSlot t arm bs found =>
    by_cases inside : slotAddress implementation ≤ a ∧ a < slotAddress implementation + 8
    · exact .inl ⟨arm, ⟨t, rfl⟩, inside⟩
    · exact .inr (by rw [State.setMem_mem, read_writeBytes_slot, if_neg inside])

theorem Effect.readX_eq (h : Effect s i r) (u : BitVec 5) :
    (u ≠ 31 ∧ i = .mrsVtcrEl2 u) ∨ r.readX u = s.readX u := by
  have written : ∀ t v, (u ≠ 31 ∧ Instr.mrsVtcrEl2 t = .mrsVtcrEl2 u) ∨ (s.writeX t v).readX u = s.readX u := by
    intro t v
    rw [State.readX_writeX]
    split
    · rename_i h
      exact .inl ⟨h.2, by rw [h.1]⟩
    · exact .inr rfl
  cases h with
  | mrsRegister t arm => exact written t _
  | mrsSlot t arm bs found => exact written t _
  | msrRegister t arm => exact .inr rfl
  | msrSlot t arm bs found => exact .inr rfl

/-- The inputs of R7, the level and the program text. -/
theorem Effect.inputs_eq (h : Effect s i r) :
    r.el = s.el ∧ r.securityState = s.securityState ∧ r.el2Enabled = s.el2Enabled ∧ r.hcrNv = s.hcrNv ∧
    r.hcrNv2 = s.hcrNv2 ∧ r.vstcrSa = s.vstcrSa ∧ r.vttbrEl2 = s.vttbrEl2 ∧ r.vsttbrEl2 = s.vsttbrEl2 ∧
    r.text = s.text := by
  cases h <;> simp

/-! The same of an instruction that goes on: moving the PC touches none of it. -/

theorem exec_vtcrEl2_eq (h : exec i s = .next t) :
    (AtEl2OrEl3 s ∧ ∃ n, i = .msrVtcrEl2 n) ∨ t.vtcrEl2 = s.vtcrEl2 := by
  obtain ⟨-, r, effect, rfl⟩ := exec_eq_next.mp h
  exact effect.vtcrEl2_eq

theorem exec_read_mem_eq (h : exec i s = .next t) (a : Nat) :
    (Redirected s ∧ (∃ n, i = .msrVtcrEl2 n) ∧ slotAddress implementation ≤ a ∧ a < slotAddress implementation + 8) ∨
      t.mem.read a = s.mem.read a := by
  obtain ⟨-, r, effect, rfl⟩ := exec_eq_next.mp h
  exact effect.read_mem_eq a

theorem exec_readX_eq (h : exec i s = .next t) (u : BitVec 5) :
    (u ≠ 31 ∧ i = .mrsVtcrEl2 u) ∨ t.readX u = s.readX u := by
  obtain ⟨-, r, effect, rfl⟩ := exec_eq_next.mp h
  exact effect.readX_eq u

theorem exec_inputs_eq (h : exec i s = .next t) :
    t.el = s.el ∧ t.securityState = s.securityState ∧ t.el2Enabled = s.el2Enabled ∧ t.hcrNv = s.hcrNv ∧
    t.hcrNv2 = s.hcrNv2 ∧ t.vstcrSa = s.vstcrSa ∧ t.vttbrEl2 = s.vttbrEl2 ∧ t.vsttbrEl2 = s.vsttbrEl2 ∧
    t.text = s.text := by
  obtain ⟨-, r, effect, rfl⟩ := exec_eq_next.mp h
  exact effect.inputs_eq

end Frame

/-! ### The bytes of the slot (R86) -/

theorem getElem_eq_slotByte (big : Bool) {bs : List Byte} (eight : bs.length = 8) {k : Nat} (hk : k < bs.length) :
    bs[k] = slotByte big (slotValue big bs) k := by
  have bytes := slotBytes_slotValue big bs eight
  rw [← slotBytes_getElem big _ k (by simpa [eight] using hk)]
  simp only [bytes]

theorem readBytes_eq_slotBytes {m : Memory} {k : Nat} {big : Bool} {v : Word64} :
    m.readBytes k 8 = some (slotBytes big v) ↔ ∀ i, i < 8 → m.read (k + i) = some (slotByte big v i) := by
  simp [Memory.readBytes_eq_some, slotBytes_getElem]

theorem read_slot_of_writeBytes (m : Memory) (k : Nat) (big : Bool) (v : Word64) {i : Nat} (hi : i < 8) :
    (m.writeBytes k (slotBytes big v)).read (k + i) = some (slotByte big v i) := by
  rw [read_writeBytes_slot, if_pos (by omega), Nat.add_sub_cancel_left]

end Sys2Proof.Machine

namespace Sys2Proof.Proofs

open Sys2Proof.Machine Sys2Proof.Safety

/-! ### Where the instructions complete -/

/-- Settles O10: the work is one write of a register, read back by the law of registers. -/
theorem mrsAtEl2AndEl3ReadsTheRegister : Obligations.MrsAtEl2AndEl3ReadsTheRegister := by
  intro t s arm room
  exact ⟨_, exec_of_effect room (.mrsRegister t arm), congrArg (State.setPc · _) (State.writeX_eq ..),
    fun u => State.readX_writeX ..⟩

/-- Settles O11: the work is one write of VTCR_EL2, bit by bit. -/
theorem msrAtEl2AndEl3WritesTheRegister : Obligations.MsrAtEl2AndEl3WritesTheRegister := by
  intro t s arm room
  exact ⟨_, exec_of_effect room (.msrRegister t arm), rfl, fun b hb => Vtcr.getLsbD_write_kind _ _ _ hb⟩

/-- Settles O12: an admitted access finds eight bytes, and the bytes of the value they hold are they. -/
theorem mrsRedirectedReadsTheSlot : Obligations.MrsRedirectedReadsTheSlot := by
  intro t s arm admitted room
  obtain ⟨bs, found, eight, held⟩ := slotContents_of_admitted admitted
  refine ⟨_, exec_of_effect room (.mrsSlot t arm bs found), congrArg (State.setPc · _) (State.writeX_eq ..),
    fun u other => ?others, fun notZero k hk => ?bytes⟩
  case others =>
    rw [State.readX_setPc, State.readX_writeX, if_neg]
    rintro ⟨same, notZero⟩
    exact other.elim (· same) notZero
  case bytes =>
    rw [State.readX_setPc, State.readX_writeX, if_pos ⟨rfl, notZero⟩, held k (by omega), ← getElem_eq_slotByte _ eight]

/-- Settles O13: what memory reads as after the bytes of a value were written to the slot. -/
theorem msrRedirectedWritesTheSlot : Obligations.MsrRedirectedWritesTheSlot := by
  intro t s arm admitted room
  obtain ⟨bs, found, -⟩ := slotContents_of_admitted admitted
  refine ⟨_, exec_of_effect room (.msrSlot t arm bs found), rfl, fun k hk => read_slot_of_writeBytes _ _ _ _ hk,
    fun a outside => ?_⟩
  rw [State.setPc_mem, State.setMem_mem, read_writeBytes_slot, if_neg (by omega)]

/-- Settles O14: writing register 31 changes nothing, and its value is 0. -/
theorem theZeroRegisterAsOperand : Obligations.TheZeroRegisterAsOperand := by
  intro s arm room
  refine ⟨exec_of_effect room (.mrsRegister 31 arm), _, exec_of_effect room (.msrRegister 31 arm),
    fun b hb => ⟨fun isRw => ?cleared, fun notRw notStored => ?kept⟩⟩
  all_goals rw [State.setPc_vtcrEl2, State.setVtcr_vtcrEl2, Vtcr.getLsbD_write_kind _ _ _ hb]
  case cleared =>
    rw [if_pos (.inl isRw)]
    exact BitVec.getLsbD_zero
  case kept => rw [if_neg (by simp [notRw, notStored])]

/-! ### Frames -/

/-- Settles O15: MRS is no MSR, so only its own register is among what executing can change. -/
theorem mrsFrame : Obligations.MrsFrame := by
  intro t s s' h
  have notMsr : ¬ ∃ n, Instr.mrsVtcrEl2 t = .msrVtcrEl2 n := nofun
  refine ⟨fun u other => ?registers, fun a => ?memory, ?vtcr, exec_inputs_eq h⟩
  case registers =>
    refine (exec_readX_eq h u).resolve_left ?_
    rintro ⟨notZero, same⟩
    cases same
    exact other.elim (· rfl) notZero
  case memory => exact (exec_read_mem_eq h a).resolve_left fun c => notMsr c.2.1
  case vtcr => exact (exec_vtcrEl2_eq h).resolve_left fun c => notMsr c.2

/-- Settles O16: MSR is no MRS; the register arm and the redirected arm exclude each other. -/
theorem msrFrame : Obligations.MsrFrame := by
  intro t s s' h
  refine ⟨fun u => ?registers, ?places, exec_inputs_eq h⟩
  case registers => exact (exec_readX_eq h u).resolve_left nofun
  case places =>
    split
    · rename_i arm
      exact fun a => (exec_read_mem_eq h a).resolve_left fun c => not_redirected_of_atEl2OrEl3 arm c.1
    · rename_i notArm
      refine ⟨(exec_vtcrEl2_eq h).resolve_left fun c => notArm c.1, fun a outside => ?_⟩
      refine (exec_read_mem_eq h a).resolve_left ?_
      rintro ⟨-, -, inside⟩
      omega

end Sys2Proof.Proofs
end

section
/-! Proofs of the statements about exceptions and stops: which fault each arm ends in, and when completing is
refused. -/

namespace Sys2Proof.Machine

open Sys2Proof.Safety

/-- Every fault of executing: one per arm that stops (R130, R131, R133). -/
theorem exec_eq_fault {i : Instr} {s : State} {e : Fault} (h : exec i s = .fault e) :
    (route s = .undefinedAccess ∧ e = .undefined s.pc (encode i)) ∨
    (route s = .trapToEl2 ∧ e = .systemAccessTrap .el2 0x18 s.pc (encode i)) ∨
    e = .nvmemAbsent (slotAddress implementation) := by
  cases arm : route s with
  | undefinedAccess =>
    cases (exec_of_undefinedAccess i arm).symm.trans h
    exact .inl ⟨rfl, rfl⟩
  | trapToEl2 =>
    cases (exec_of_trapToEl2 i arm).symm.trans h
    exact .inr (.inl ⟨rfl, rfl⟩)
  | nvmem => exact .inr (.inr (eq_nvmemAbsent_of_exec_of_redirected (route_eq_nvmem.mp arm) h))
  | register =>
    obtain ⟨r, completes, -⟩ := exec_eq_complete i (.inl (route_eq_register.mp arm))
    exact (complete_ne_fault r e (completes.symm.trans h)).elim

theorem exec_eq_undefined {i : Instr} {s : State} {a : Word64} {w : InstrWord} :
    exec i s = .fault (.undefined a w) ↔ route s = .undefinedAccess ∧ a = s.pc ∧ w = encode i := by
  constructor
  · intro h
    obtain ⟨arm, e⟩ | ⟨-, e⟩ | e := exec_eq_fault h
    · cases e
      exact ⟨arm, rfl, rfl⟩
    · cases e
    · cases e
  · rintro ⟨arm, rfl, rfl⟩
    exact exec_of_undefinedAccess i arm

theorem exec_eq_systemAccessTrap {i : Instr} {s : State} {target : ExceptionLevel} {code : Nat} {a : Word64}
    {w : InstrWord} :
    exec i s = .fault (.systemAccessTrap target code a w) ↔
      route s = .trapToEl2 ∧ target = .el2 ∧ code = 0x18 ∧ a = s.pc ∧ w = encode i := by
  constructor
  · intro h
    obtain ⟨-, e⟩ | ⟨arm, e⟩ | e := exec_eq_fault h
    · cases e
    · cases e
      exact ⟨arm, rfl, rfl, rfl, rfl⟩
    · cases e
  · rintro ⟨arm, rfl, rfl, rfl, rfl⟩
    exact exec_of_trapToEl2 i arm

theorem slotContents_of_absent {c : Config} {s : State} (free : textOverlapsSlot c s = false)
    (absent : ∃ k, k < 8 ∧ s.mem.read (slotAddress c + k) = none) :
    slotContents c s = .fault (.nvmemAbsent (slotAddress c)) := by
  simp [slotContents, free, Memory.readBytes_eq_none.mpr absent]

theorem slotContents_of_overlap {c : Config} {s : State} (h : textOverlapsSlot c s = true) :
    slotContents c s = .refused (.textOverlapsNvmem (slotAddress c)) := if_pos h

theorem textOverlapsSlot_of_mem {c : Config} {s : State} {cell : Host.Cell} (listed : cell ∈ s.text)
    (inside : slotAddress c ≤ cell.1 ∧ cell.1 < slotAddress c + 8) : textOverlapsSlot c s = true := by
  by_contra h
  exact textOverlapsSlot_eq_false.mp (Bool.eq_false_iff.mpr h) cell listed inside

end Sys2Proof.Machine

namespace Sys2Proof.Proofs

open Sys2Proof.Machine Sys2Proof.Safety

/-- Settles O17. -/
theorem undefinedExactlyWhereThePseudocodeSaysSo : Obligations.UndefinedExactlyWhereThePseudocodeSaysSo := by
  intro i s
  refine ⟨?_, fun a w h => (exec_eq_undefined.mp h).2⟩
  rw [exec_eq_undefined, ← route_eq_undefinedAccess]
  simp

/-- Settles O18. -/
theorem trapToEl2ExactlyUnderNvWithoutNv2 : Obligations.TrapToEl2ExactlyUnderNvWithoutNv2 := by
  intro i s
  refine ⟨?_, fun target code a w h => (exec_eq_systemAccessTrap.mp h).2⟩
  rw [exec_eq_systemAccessTrap, ← route_eq_trapToEl2]
  simp

/-- Settles O20. -/
theorem anAbsentSlotIsStuck : Obligations.AnAbsentSlotIsStuck :=
  fun _ _ r free absent => exec_of_slot_fault r (slotContents_of_absent free absent)

/-- Settles O21. -/
theorem textOnTheSlotIsRefused : Obligations.TextOnTheSlotIsRefused :=
  fun _ _ _ _ r listed low high => exec_of_slot_refused r
    (slotContents_of_overlap (textOverlapsSlot_of_mem listed ⟨low, high⟩))

/-- Settles O22: where the access is done, executing is completing. -/
theorem pcPastTheTopIsRefused : Obligations.PcPastTheTopIsRefused := by
  intro i s h
  obtain ⟨r, completes, pc⟩ := exec_eq_complete i h
  rw [completes, complete_eq_refused, pc]
  simp

end Sys2Proof.Proofs
end

section
/-! Proofs of the laws of the two paths: reading back what was written, and repeating an access. -/

namespace Sys2Proof.Machine

open Sys2Proof.Safety

theorem exec_msr_next_of_register {n : BitVec 5} {s t : State} (arm : AtEl2OrEl3 s)
    (h : exec (.msrVtcrEl2 n) s = .next t) : t.vtcrEl2 = Vtcr.write implementation s.vtcrEl2 (s.readX n) := by
  rw [exec_msr_of_register n (route_eq_register.mpr arm), complete_eq_next] at h
  rw [h.2]
  rfl

theorem exec_mrs_next_of_register {m : BitVec 5} {s t : State} (arm : AtEl2OrEl3 s) (notZero : m ≠ 31)
    (h : exec (.mrsVtcrEl2 m) s = .next t) : t.readX m = Vtcr.read implementation s.vtcrEl2 := by
  rw [exec_mrs_of_register m (route_eq_register.mpr arm), complete_eq_next] at h
  rw [h.2, State.readX_setPc, State.readX_writeX, if_pos ⟨rfl, notZero⟩]

theorem exec_msr_next_of_redirected {n : BitVec 5} {s t : State} (arm : Redirected s)
    (h : exec (.msrVtcrEl2 n) s = .next t) {k : Nat} (hk : k < 8) :
    t.mem.read (slotAddress implementation + k) = some (slotByte implementation.nvmemBigEndian (s.readX n) k) := by
  obtain ⟨-, r, effect, rfl⟩ := exec_eq_next.mp h
  cases effect with
  | msrRegister _ other => exact (not_redirected_of_atEl2OrEl3 other arm).elim
  | msrSlot _ _ bs found => exact read_slot_of_writeBytes _ _ _ _ hk

theorem exec_mrs_next_of_redirected {m : BitVec 5} {s t : State} {v : Word64} (arm : Redirected s) (notZero : m ≠ 31)
    (held : ∀ k, k < 8 →
      s.mem.read (slotAddress implementation + k) = some (slotByte implementation.nvmemBigEndian v k))
    (h : exec (.mrsVtcrEl2 m) s = .next t) : t.readX m = v := by
  obtain ⟨-, r, effect, rfl⟩ := exec_eq_next.mp h
  cases effect with
  | mrsRegister _ other => exact (not_redirected_of_atEl2OrEl3 other arm).elim
  | mrsSlot _ _ bs found =>
    have bytes : some bs = some (slotBytes implementation.nvmemBigEndian v) :=
      (slotContents_eq_next.mp found).2.symm.trans (readBytes_eq_slotBytes.mpr held)
    rw [State.readX_setPc, State.readX_writeX, if_pos ⟨rfl, notZero⟩, Option.some.inj bytes, slotValue_slotBytes]

/-- A read, bit by bit (R44). -/
theorem Vtcr.getLsbD_read (c : Config) (v : Word64) {b : Nat} (hb : b < 64) :
    (Vtcr.read c v).getLsbD b =
      if c.haveEl2 = true ∧ c.tg0ReadbackEffective = true ∧ Vtcr.implementedGranule c (Vtcr.tg0 v) = none ∧
        (b = 14 ∨ b = 15) then (Vtcr.encodingOf (Vtcr.effTg0 c v)).getLsbD (b - 14)
      else v.getLsbD b := by
  by_cases h : Vtcr.ReadsBackEffective c v
  · rw [Vtcr.read_of_readsBackEffective h, Vtcr.getLsbD_withTg0 v _ b hb]
    obtain ⟨el2, effective, absent⟩ := h
    simp [el2, effective, absent]
  · rw [Vtcr.read_of_not_readsBackEffective h, if_neg]
    rintro ⟨el2, effective, absent, -⟩
    exact h ⟨el2, effective, absent⟩

/-! ### Repeating an access (R88) -/

@[simp] theorem slotContents_writeX (c : Config) (s : State) (t : BitVec 5) (v : Word64) :
    slotContents c (s.writeX t v) = slotContents c s := by
  unfold State.writeX
  split <;> rfl

/-- The slot just written is found with the bytes written. -/
theorem slotContents_after_write {c : Config} {s : State} {bs : List Byte} (v : Word64)
    (found : slotContents c s = .next bs) :
    slotContents c (s.setMem (s.mem.writeBytes (slotAddress c) (slotBytes c.nvmemBigEndian v))) =
      .next (slotBytes c.nvmemBigEndian v) :=
  slotContents_eq_next.mpr ⟨(slotContents_eq_next.mp found).1,
    readBytes_eq_slotBytes.mpr fun _ hi => read_slot_of_writeBytes _ _ _ _ hi⟩

/-- The work of an instruction, done, is its own work: a second time changes nothing. -/
theorem Effect.again {i : Instr} {s r : State} (h : Effect s i r) : Effect r i r := by
  cases h with
  | mrsRegister t arm =>
    have second := Effect.mrsRegister (s := s.writeX t (Vtcr.read implementation s.vtcrEl2)) t
      (by simpa [AtEl2OrEl3] using arm)
    rwa [State.writeX_vtcrEl2, State.writeX_writeX_same] at second
  | mrsSlot t arm bs found =>
    have second := Effect.mrsSlot (s := s.writeX t (slotValue implementation.nvmemBigEndian bs)) t
      (by simpa [Redirected] using arm) bs (by rwa [slotContents_writeX])
    rwa [State.writeX_writeX_same] at second
  | msrRegister t arm =>
    have second := Effect.msrRegister (s := s.setVtcr (Vtcr.write implementation s.vtcrEl2 (s.readX t))) t arm
    rwa [State.readX_setVtcr, State.setVtcr_vtcrEl2, Vtcr.write_write_same] at second
  | msrSlot t arm bs found =>
    have second := Effect.msrSlot (s := s.setMem (s.mem.writeBytes (slotAddress implementation)
      (slotBytes implementation.nvmemBigEndian (s.readX t)))) t arm _ (slotContents_after_write _ found)
    rwa [State.readX_setMem, State.setMem_mem, Memory.writeBytes_writeBytes_same] at second

end Sys2Proof.Machine

namespace Sys2Proof.Proofs

open Sys2Proof.Machine Sys2Proof.Safety

/-- Settles O23: a read bit by bit of a write bit by bit; TG0 is stored as written where EL2 is implemented. -/
theorem mrsAfterMsrAtEl2OrEl3 : Obligations.MrsAfterMsrAtEl2OrEl3 := by
  intro n m s s1 u u2 arm hold wrote arm' left read notZero b hb
  have tg0 : implementation.haveEl2 = true → Vtcr.tg0 u.vtcrEl2 = Vtcr.tg0 (s.readX n) := fun el2 => by
    rw [left, exec_msr_next_of_register arm wrote, Vtcr.tg0_write el2]
  rw [exec_mrs_next_of_register arm' notZero read, Vtcr.getLsbD_read _ _ hb]
  by_cases el2 : implementation.haveEl2 = true
  · rw [tg0 el2, Vtcr.effTg0_congr _ (tg0 el2), left, exec_msr_next_of_register arm wrote,
      Vtcr.getLsbD_write_of_hold hold _ hb]
  · rw [if_neg fun h => el2 h.1, if_neg fun h => el2 h.1, left, exec_msr_next_of_register arm wrote,
      Vtcr.getLsbD_write_of_hold hold _ hb]

/-- Settles O24: the slot holds the bytes of the value, which determine it; neither access writes VTCR_EL2. -/
theorem mrsAfterMsrThroughMemory : Obligations.MrsAfterMsrThroughMemory := by
  intro n m s s1 u u2 arm wrote arm' slot left read notZero
  refine ⟨exec_mrs_next_of_redirected arm' notZero (fun k hk => ?held) read, ?vtcr⟩
  case held => rw [slot k hk, exec_msr_next_of_redirected arm wrote hk]
  case vtcr =>
    have second := (exec_vtcrEl2_eq read).resolve_left nofun
    have first := (exec_vtcrEl2_eq wrote).resolve_left fun c => not_redirected_of_atEl2OrEl3 c.1 arm
    rw [second, left, first]

/-- Settles O25: putting the PC back leaves the state in which the work is done, and there it is done again. -/
theorem repeatingAnAccessChangesNothing : Obligations.RepeatingAnAccessChangesNothing := by
  intro i s s' h
  obtain ⟨room, r, effect, rfl⟩ := exec_eq_next.mp h
  rw [State.setPc_setPc, ← effect.pc_eq, State.setPc_self]
  exact exec_eq_next.mpr ⟨effect.pc_eq ▸ room, r, effect.again, rfl⟩

end Sys2Proof.Proofs
end

section
/-! Proofs of the statements about steps: the invariant, what a step leaves as it was, and which inputs it does not
consult. -/

namespace Sys2Proof.Machine

open Sys2Proof.Safety

/-! ### The invariant -/

/-- The work of an instruction keeps the invariant: a write moves no hardwired bit, and the slot is inside the address
space. -/
theorem Effect.inv {i : Instr} {s r : State} (h : Effect s i r) (inv : Inv implementation s) :
    Inv implementation r := by
  obtain ⟨el, -, enabled, -, -, -, -, -, text⟩ := h.inputs_eq
  have reserved : ReservedBitsHold implementation r.vtcrEl2 := by
    cases h with
    | mrsRegister t arm => rw [State.writeX_vtcrEl2]; exact inv.reserved
    | mrsSlot t arm bs found => rw [State.writeX_vtcrEl2]; exact inv.reserved
    | msrRegister t arm => exact Vtcr.reservedBitsHold_write inv.reserved _
    | msrSlot t arm bs found => exact inv.reserved
  have mem : r.mem.wf := by
    cases h with
    | mrsRegister t arm => rw [State.writeX_mem]; exact inv.mem
    | mrsSlot t arm bs found => rw [State.writeX_mem]; exact inv.mem
    | msrRegister t arm => exact inv.mem
    | msrSlot t arm bs found =>
      exact Memory.wf_writeBytes _ inv.mem (by simpa using slotAddress_inside implementation)
  exact
    { reserved
      levels := by rw [LevelsLegal, el, enabled]; exact inv.levels
      pc := h.pc_eq ▸ inv.pc
      mem
      text := text ▸ inv.text }

/-- Moving the PC to another multiple of 4 keeps the invariant. -/
theorem inv_setPc {c : Config} {s : State} {pc : Word64} (inv : Inv c s) (aligned : pc.toNat % 4 = 0) :
    Inv c (s.setPc pc) :=
  { reserved := inv.reserved, levels := inv.levels, pc := aligned, mem := inv.mem, text := inv.text }

theorem exec_inv {i : Instr} {s t : State} (inv : Inv implementation s) (h : exec i s = .next t) :
    Inv implementation t := by
  obtain ⟨room, r, effect, rfl⟩ := exec_eq_next.mp h
  refine inv_setPc (effect.inv inv) ?_
  rw [toNat_pc_add_four room, Nat.add_mod_right, inv.pc]

/-! ### Outcomes under a change that the instruction does not see -/

theorem mapNext_andThen {α : Type} (f : State → State) (r : Result α) (g : α → Result State) :
    mapNext f (r.andThen g) = r.andThen fun a => mapNext f (g a) := by
  cases r <;> rfl

theorem andThen_mapNext {f : State → State} {g : State → Result State} (comm : ∀ s, g (f s) = mapNext f (g s))
    (r : Result State) : (mapNext f r).andThen g = mapNext f (r.andThen g) := by
  cases r with
  | next s => exact comm s
  | fault e => rfl
  | refused e => rfl

/-- Completing does not see a change that leaves the PC alone. -/
theorem complete_map {f : State → State} {s : State} (pc : (f s).pc = s.pc)
    (setPc : ∀ p, (f s).setPc p = f (s.setPc p)) : complete (f s) = mapNext f (complete s) := by
  unfold complete
  rw [pc, setPc]
  split <;> rfl

theorem writeNvmem_setVtcr (c : Config) (w v : Word64) (s : State) :
    writeNvmem c w (s.setVtcr v) = mapNext (fun t => t.setVtcr v) (writeNvmem c w s) := by
  unfold writeNvmem
  rw [mapNext_andThen]
  rfl

/-- At EL0 and EL1 executing does not see VTCR_EL2: no arm there reads or writes it. -/
theorem exec_setVtcr {s : State} (i : Instr) (v : Word64) (below : s.el = .el0 ∨ s.el = .el1) :
    exec i (s.setVtcr v) = mapNext (fun t => t.setVtcr v) (exec i s) := by
  have same : route (s.setVtcr v) = route s := rfl
  cases arm : route s with
  | undefinedAccess => rw [exec_of_undefinedAccess i arm, exec_of_undefinedAccess i (same.trans arm)]; rfl
  | trapToEl2 => rw [exec_of_trapToEl2 i arm, exec_of_trapToEl2 i (same.trans arm)]; rfl
  | register =>
    obtain e | e := route_eq_register.mp arm <;> simp [e] at below
  | nvmem =>
    have done : ∀ t : State, complete (t.setVtcr v) = mapNext (fun t => t.setVtcr v) (complete t) :=
      fun t => complete_map (f := fun t => t.setVtcr v) rfl fun _ => rfl
    cases i with
    | mrsVtcrEl2 t =>
      rw [exec_mrs_of_nvmem t arm, exec_mrs_of_nvmem t (same.trans arm), mapNext_andThen]
      exact congrArg (Result.andThen (readNvmem implementation s)) (funext fun w => by rw [State.writeX_setVtcr, done])
    | msrVtcrEl2 t =>
      rw [exec_msr_of_nvmem t arm, exec_msr_of_nvmem t (same.trans arm), State.readX_setVtcr, writeNvmem_setVtcr,
        andThen_mapNext done]

/-- A step sees a change of VTCR_EL2 only where the instruction does: fetch and decode do not read it. -/
theorem step_setVtcr {s : State} (v : Word64) (below : s.el = .el0 ∨ s.el = .el1) :
    step (s.setVtcr v) = mapNext (fun t => t.setVtcr v) (step s) := by
  have fetched : fetch (s.setVtcr v) = fetch s := rfl
  unfold step
  rw [State.setVtcr_pc, fetched]
  split
  · split
    · rfl
    · split
      · exact exec_setVtcr _ v below
      · rfl
      · rfl
  · rfl

/-- A change of what only EL1 consults: it leaves the level, the PC, VTCR_EL2 and the registers, and the writes of
these do not depend on it. -/
structure Unconsulted (f : State → State) : Prop where
  el      : ∀ s, (f s).el = s.el
  pc      : ∀ s, (f s).pc = s.pc
  vtcrEl2 : ∀ s, (f s).vtcrEl2 = s.vtcrEl2
  readX   : ∀ s t, (f s).readX t = s.readX t
  setPc   : ∀ s p, (f s).setPc p = f (s.setPc p)
  writeX  : ∀ s t v, (f s).writeX t v = f (s.writeX t v)
  setVtcr : ∀ s v, (f s).setVtcr v = f (s.setVtcr v)

/-- Away from EL1 the level alone selects the arm (R122). -/
theorem route_eq_of_el {s t : State} (same : t.el = s.el) (h : s.el ≠ .el1) : route t = route s := by
  unfold route
  rw [same]
  cases e : s.el with
  | el1 => exact absurd e h
  | _ => rfl

theorem exec_of_unconsulted {f : State → State} (hf : Unconsulted f) (i : Instr) {s : State} (away : s.el ≠ .el1) :
    exec i (f s) = mapNext f (exec i s) := by
  have same : route (f s) = route s := route_eq_of_el (hf.el s) away
  have done : ∀ t, complete (f t) = mapNext f (complete t) := fun t => complete_map (hf.pc t) (hf.setPc t)
  cases arm : route s with
  | undefinedAccess =>
    rw [exec_of_undefinedAccess i arm, exec_of_undefinedAccess i (same.trans arm), hf.pc]
    rfl
  | trapToEl2 => exact absurd (route_eq_trapToEl2.mp arm).1 away
  | nvmem => exact absurd (route_eq_nvmem.mp arm).1 away
  | register =>
    cases i with
    | mrsVtcrEl2 t =>
      rw [exec_mrs_of_register t arm, exec_mrs_of_register t (same.trans arm), hf.vtcrEl2, hf.writeX, done]
    | msrVtcrEl2 t =>
      rw [exec_msr_of_register t arm, exec_msr_of_register t (same.trans arm), hf.vtcrEl2, hf.readX, hf.setVtcr, done]

end Sys2Proof.Machine

namespace Sys2Proof.Proofs

open Sys2Proof.Machine Sys2Proof.Safety

/-- Settles O26: a step that goes on has run an instruction, whose work keeps the invariant, and moved the PC by 4. -/
theorem everyStepKeepsTheInvariant : Obligations.EveryStepKeepsTheInvariant := by
  intro s t inv h
  obtain ⟨i, -, ran⟩ := exists_runs_of_step h
  exact exec_inv inv ran

/-- Settles O30: the work leaves the PC, which has room. -/
theorem everyStepAdvancesThePcByFour : Obligations.EveryStepAdvancesThePcByFour := by
  intro s t h
  obtain ⟨i, -, ran⟩ := exists_runs_of_step h
  obtain ⟨room, r, -, rfl⟩ := exec_eq_next.mp ran
  exact toNat_pc_add_four room

/-- Settles O31. -/
theorem noStepWritesTheInputs : Obligations.NoStepWritesTheInputs := by
  intro s t h
  obtain ⟨i, -, ran⟩ := exists_runs_of_step h
  exact exec_inputs_eq ran

/-- Settles O32. -/
theorem onlyAnMsrAtEl2OrEl3ChangesVtcr : Obligations.OnlyAnMsrAtEl2OrEl3ChangesVtcr := by
  intro s t h
  obtain ⟨i, runs, ran⟩ := exists_runs_of_step h
  obtain ⟨arm, n, rfl⟩ | kept := exec_vtcrEl2_eq ran
  · exact .inl ⟨arm, n, runs⟩
  · exact .inr kept

/-- Settles O33. -/
theorem onlyARedirectedMsrChangesMemory : Obligations.OnlyARedirectedMsrChangesMemory := by
  intro s t a h
  obtain ⟨i, runs, ran⟩ := exists_runs_of_step h
  obtain ⟨arm, ⟨n, rfl⟩, inside⟩ | kept := exec_read_mem_eq ran a
  · exact .inl ⟨arm, ⟨n, runs⟩, inside⟩
  · exact .inr kept

/-- Settles O34. -/
theorem onlyItsMrsChangesARegister : Obligations.OnlyItsMrsChangesARegister := by
  intro s t u h
  obtain ⟨i, runs, ran⟩ := exists_runs_of_step h
  obtain ⟨notZero, rfl⟩ | kept := exec_readX_eq ran u
  · exact .inl ⟨notZero, runs⟩
  · exact .inr kept

/-- Settles O35: below EL2 no arm reads the register, and only the register arm writes it. -/
theorem belowEl2VtcrIsIsolated : Obligations.BelowEl2VtcrIsIsolated := by
  intro s v below
  refine ⟨step_setVtcr v below, fun t h => ?_⟩
  obtain ⟨i, -, ran⟩ := exists_runs_of_step h
  refine (exec_vtcrEl2_eq ran).resolve_left ?_
  rintro ⟨e | e, -⟩ <;> simp [e] at below

/-- Settles O36: away from EL1 the level selects the arm, and neither remaining arm consults what the change touches. -/
theorem otherInputsAreNotConsulted : Obligations.OtherInputsAreNotConsulted := by
  intro i s enabled nv nv2 sa q b b' m away other
  have unconsulted : Unconsulted other :=
    { el := fun _ => rfl
      pc := fun _ => rfl
      vtcrEl2 := fun _ => rfl
      readX := fun _ _ => rfl
      setPc := fun _ _ => rfl
      writeX := fun s t v => by unfold State.writeX; split <;> rfl
      setVtcr := fun _ _ => rfl }
  exact exec_of_unconsulted unconsulted i away

end Sys2Proof.Proofs
end

section
/-! Proofs about the stage 2 view: the output size, the reserved start level, the components, and what an attempted
translation meets. -/

namespace Sys2Proof.Machine

open Sys2Proof.Safety

/-! ### Output size (R64, R66, R67) -/

theorem Stage2.effPs_of_defined {c : Config} {v : Word64} (h : Vtcr.ps v ≠ 0b111) : Stage2.effPs c v = Vtcr.ps v :=
  if_neg h

theorem Stage2.effPs_of_reserved {c : Config} {v : Word64} (h : Vtcr.ps v = 0b111) :
    Stage2.effPs c v = Stage2.codeOfReserved c.psReservedAs := if_pos h

/-- 0b110 is in effect where it is programmed, or followed by the reserved value. -/
theorem Stage2.effPs_eq_110 {c : Config} {v : Word64} :
    Stage2.effPs c v = 0b110 ↔ Vtcr.ps v = 0b110 ∨ (Vtcr.ps v = 0b111 ∧ c.psReservedAs = .as110) := by
  by_cases h : Vtcr.ps v = 0b111
  · rw [Stage2.effPs_of_reserved h, h]
    cases c.psReservedAs <;> decide
  · rw [Stage2.effPs_of_defined h]
    exact ⟨.inl, fun either => either.elim id fun reserved => absurd reserved.1 h⟩

theorem Stage2.effPs_ne_111 (c : Config) (v : Word64) : Stage2.effPs c v ≠ 0b111 := by
  by_cases h : Vtcr.ps v = 0b111
  · rw [Stage2.effPs_of_reserved h]
    cases c.psReservedAs <;> decide
  · rwa [Stage2.effPs_of_defined h]

theorem Stage2.ps110Permitted_eq_true {c : Config} {v : Word64} :
    Stage2.ps110Permitted c v = true ↔ c.haveLpa = true ∧ Vtcr.effTg0 c v = .k64 := by
  simp [Stage2.ps110Permitted]

/-- Every value of PS but the reserved one has a size. -/
theorem Stage2.psBits_eq_none : ∀ {ps : BitVec 3}, Stage2.psBits ps = none ↔ ps = 0b111 := by decide

theorem Stage2.outputBits_of_ne_110 {c : Config} {v : Word64} (h : Stage2.effPs c v ≠ 0b110) :
    Stage2.outputBits c v = Stage2.psBits (Stage2.effPs c v) :=
  if_neg fun both => h (of_decide_eq_true (Bool.and_eq_true_iff.mp both).1)

theorem Stage2.outputBits_of_permitted {c : Config} {v : Word64}
    (permitted : c.haveLpa = true ∧ Vtcr.effTg0 c v = .k64) :
    Stage2.outputBits c v = Stage2.psBits (Stage2.effPs c v) :=
  if_neg (by simp [Stage2.ps110Permitted_eq_true.mpr permitted])

/-- There is no output size exactly where 0b110 is in effect and not permitted (R67). -/
theorem Stage2.outputBits_eq_none {c : Config} {v : Word64} :
    Stage2.outputBits c v = none ↔ Stage2.effPs c v = 0b110 ∧ ¬ (c.haveLpa = true ∧ Vtcr.effTg0 c v = .k64) := by
  rw [← Stage2.ps110Permitted_eq_true]
  unfold Stage2.outputBits
  split
  · rename_i h
    simpa using h
  · rename_i h
    have sized : Stage2.psBits (Stage2.effPs c v) ≠ none :=
      fun e => Stage2.effPs_ne_111 c v (Stage2.psBits_eq_none.mp e)
    simpa [sized] using h

theorem Stage2.outputSize_of_outputBits {c : Config} {v : Word64} {n : Nat} (h : Stage2.outputBits c v = some n) :
    Stage2.outputSize c v = some (2 ^ n) := by
  rw [Stage2.outputSize, h, Option.map_some]

/-- A defined value below 0b110 gives the size of its row (R64). -/
theorem Stage2.outputBits_of_ps {c : Config} {v : Word64} {ps : BitVec 3} (h : Vtcr.ps v = ps)
    (below : ps.toNat < 6) : Stage2.outputBits c v = Stage2.psBits ps := by
  have ne : ∀ {q : BitVec 3}, 6 ≤ q.toNat → ps ≠ q := fun big e => by subst e; omega
  have eff : Stage2.effPs c v = ps := (Stage2.effPs_of_defined (h ▸ ne (by decide))).trans h
  rw [Stage2.outputBits_of_ne_110 (eff ▸ ne (by decide)), eff]

/-! ### Start level (R75 to R78) -/

/-- SL0 is reserved exactly at 0b11 without TTST or the 4KB granule. -/
theorem Stage2.startLevelOf_eq_reserved {c : Config} {g : Granule} {sl0 : BitVec 2} :
    Stage2.startLevelOf c g sl0 = .reserved ↔ sl0 = 0b11 ∧ ¬ (c.haveTtst = true ∧ g = .k4) := by
  have values : ∀ x : BitVec 2, x = 0b00#2 ∨ x = 0b01#2 ∨ x = 0b10#2 ∨ x = 0b11#2 := by decide
  obtain rfl | rfl | rfl | rfl := values sl0
  · rw [Stage2.startLevelOf_sl0_00]
    split <;> simp
  · rw [Stage2.startLevelOf_sl0_01]
    split <;> simp
  · rw [Stage2.startLevelOf_sl0_10]
    split <;> simp
  · rw [Stage2.startLevelOf_sl0_11]
    split
    · rename_i there
      simp [there]
    · rename_i notBoth
      simpa [and_comm] using notBoth

theorem Stage2.level0Fault_eq_true {c : Config} {v : Word64} :
    Stage2.level0Fault c v = true ↔ Stage2.startLevel c v = .reserved ∨
      c.sl0T0szConsistent (Vtcr.effTg0 c v) (Vtcr.sl0 v) (Vtcr.t0sz v) = false := by
  simp [Stage2.level0Fault]

/-- No shareability is the reserved SH0 (R71, R72). -/
theorem Stage2.shareabilityOf_eq_none : ∀ {sh0 : BitVec 2}, Stage2.shareabilityOf sh0 = none ↔ sh0 = 0b01 := by decide

/-! ### Components that exist with their feature -/

@[simp] theorem Stage2.present_true {α : Type} (a : α) : Stage2.present true a = some a := rfl
@[simp] theorem Stage2.present_false {α : Type} (a : α) : Stage2.present false a = none := rfl

theorem Stage2.present_congr {α : Type} {feature : Bool} {a b : α} (h : feature = true → a = b) :
    Stage2.present feature a = Stage2.present feature b := by
  cases feature with
  | false => rfl
  | true => rw [h rfl]

/-! ### The configuration and an attempted translation -/

theorem stage2Config_of_el2 {c : Config} {s : State} (el2 : c.haveEl2 = true) (enabled : s.el2Enabled = true) :
    stage2Config c s = some (Stage2.view c s) := stage2Config_eq_some.mpr ⟨⟨el2, enabled⟩, rfl⟩

/-- The VMID size while the register has an effect (R84). -/
theorem Stage2.vmidBits_of_el2 {c : Config} {s : State} (el2 : c.haveEl2 = true) (enabled : s.el2Enabled = true) :
    Stage2.vmidBits c s =
      some (if c.haveVmid16 = true ∧ s.vtcrEl2.getLsbD 19 = true then 16 else 8) := by
  rw [Stage2.vmidBits, stage2Config_of_el2 el2 enabled, Option.map_some]
  have vs : (Stage2.view c s).vmid16 = some true ↔ c.haveVmid16 = true ∧ s.vtcrEl2.getLsbD 19 = true := by
    show Stage2.present c.haveVmid16 (s.vtcrEl2.getLsbD 19) = some true ↔ _
    cases c.haveVmid16 <;> simp
  simp only [vs]

theorem Stage2.vmidBits_eq_none {c : Config} {s : State} :
    Stage2.vmidBits c s = none ↔ ¬ (c.haveEl2 = true ∧ s.el2Enabled = true) := by
  rw [Stage2.vmidBits, Option.map_eq_none_iff, stage2Config_eq_none]

theorem stage2Attempt_of_none {c : Config} {s : State} (h : stage2Config c s = none) :
    stage2Attempt c s = .noEffect := by
  rw [stage2Attempt, h]

/-- What an attempted translation meets while the register has an effect, in the order of log 13. -/
theorem stage2Attempt_of_el2 {c : Config} {s : State} (el2 : c.haveEl2 = true) (enabled : s.el2Enabled = true) :
    stage2Attempt c s =
      if Vtcr.sh0 s.vtcrEl2 = 0b01 then .refusedShareability
      else if Stage2.outputBits c s.vtcrEl2 = none then .refusedOutputSize
      else if Stage2.level0Fault c s.vtcrEl2 = true then .level0TranslationFault
      else .configured (Stage2.view c s) := by
  rw [stage2Attempt, stage2Config_of_el2 el2 enabled]
  simp only [Stage2.view_walkShare, Stage2.shareabilityOf_eq_none]
  rfl

/-- The attempt is a function of the configuration. -/
theorem stage2Attempt_congr {c : Config} {s t : State} (h : stage2Config c t = stage2Config c s) :
    stage2Attempt c t = stage2Attempt c s := by
  rw [stage2Attempt, stage2Attempt, h]

/-- The configuration sees the register, the Security state, `EL2Enabled()` and SA, nothing else of the state (R65). -/
theorem stage2Config_of_inputs {c : Config} {s t : State} (vtcr : t.vtcrEl2 = s.vtcrEl2)
    (security : t.securityState = s.securityState) (enabled : t.el2Enabled = s.el2Enabled)
    (sa : t.vstcrSa = s.vstcrSa) :
    stage2Config c t = stage2Config c s := by
  simp only [stage2Config, Stage2.hasEffect, Stage2.view, Stage2.effNsa, Stage2.effNsw, vtcr, security, enabled, sa]
  rfl

@[simp] theorem Vtcr.nsw_read (c : Config) (v : Word64) : Vtcr.nsw (Vtcr.read c v) = Vtcr.nsw v :=
  Vtcr.getLsbD_read_of_ne c v (by decide) (by decide) (by decide)

theorem Stage2.effNsw_of_nonSecure {s : State} (h : s.securityState = .nonSecure) : Stage2.effNsw s = true := if_pos h

theorem Stage2.effNsw_of_secure {s : State} (h : s.securityState = .secure) :
    Stage2.effNsw s = Vtcr.nsw s.vtcrEl2 := if_neg (by simp [h])

end Sys2Proof.Machine

namespace Sys2Proof.Proofs

open Sys2Proof.Machine Sys2Proof.Safety

/-- Settles O45, row by row of R64; the reserved value follows one of two rows. -/
theorem theOutputAddressSizes : Obligations.TheOutputAddressSizes := by
  intro c v
  have both : ∀ {n}, Stage2.outputBits c v = some n →
      Stage2.outputBits c v = some n ∧ Stage2.outputSize c v = some (2 ^ n) :=
    fun h => ⟨h, Stage2.outputSize_of_outputBits h⟩
  have row : ∀ {ps : BitVec 3} {n}, Vtcr.ps v = ps → ps.toNat < 6 → Stage2.psBits ps = some n →
      Stage2.outputBits c v = some n ∧ Stage2.outputSize c v = some (2 ^ n) :=
    fun h below size => both ((Stage2.outputBits_of_ps h below).trans size)
  have row110 : Stage2.effPs c v = 0b110 → c.haveLpa = true → Vtcr.effTg0 c v = .k64 →
      Stage2.outputBits c v = some 52 := by
    intro eff lpa k64
    rw [Stage2.outputBits_of_permitted ⟨lpa, k64⟩, eff]
    rfl
  refine ⟨fun h => row h (by decide) rfl, fun h => row h (by decide) rfl, fun h => row h (by decide) rfl,
    fun h => row h (by decide) rfl, fun h => row h (by decide) rfl, fun h => row h (by decide) rfl,
    fun h lpa k64 => both (row110 (Stage2.effPs_eq_110.mpr (.inl h)) lpa k64), fun h as101 => ?reserved101,
    fun h as110 lpa k64 => row110 (Stage2.effPs_eq_110.mpr (.inr ⟨h, as110⟩)) lpa k64⟩
  case reserved101 =>
    have eff : Stage2.effPs c v = 0b101 := by
      rw [Stage2.effPs_of_reserved h, as101]
      rfl
    rw [Stage2.outputBits_of_ne_110 (eff ▸ by decide), eff]
    rfl

/-- Settles O46. -/
theorem fiftyTwoBitsOnlyWhenPermitted : Obligations.FiftyTwoBitsOnlyWhenPermitted :=
  fun _ _ => Stage2.outputBits_eq_none

/-- Settles O47: with 52-bit addresses the component says whether 0b110 is in effect. -/
theorem tableBaseHighBitsAreZeroBelow52Bits : Obligations.TableBaseHighBitsAreZeroBelow52Bits := by
  intro c s el2 enabled
  have component : (Stage2.view c s).tableBaseHighZero =
      Stage2.present c.haveLpa (Stage2.effPs c s.vtcrEl2 != 0b110) := rfl
  refine ⟨_, stage2Config_of_el2 el2 enabled, fun lpa => ?_, fun noLpa => ?_⟩
  · rw [component, lpa, ← Stage2.effPs_eq_110]
    simp
  · rw [component, noLpa]
    rfl

/-- Settles O50. -/
theorem level0FaultExactlyWhereReservedOrInconsistent : Obligations.Level0FaultExactlyWhereReservedOrInconsistent := by
  intro c v
  rw [Stage2.level0Fault_eq_true, Stage2.startLevel, Stage2.startLevelOf_eq_reserved]

/-- Settles O53: with NSW = 1 both effective bits are 1, whatever NSA is. -/
theorem whenNswBehavesAsOne : Obligations.WhenNswBehavesAsOne := by
  intro c s
  refine ⟨Stage2.effNsw_of_nonSecure, Stage2.effNsw_of_secure, rfl, Vtcr.nsw_read c _,
    fun v v' secure _ nsw nsw' => ⟨?nsa, ?nsw⟩⟩
  case nsa =>
    rw [Stage2.effNsa_of_forced (s := s.setVtcr v) (.inr (.inl nsw)),
      Stage2.effNsa_of_forced (s := s.setVtcr v') (.inr (.inl nsw'))]
  case nsw =>
    rw [Stage2.effNsw_of_secure (s := s.setVtcr v) secure, Stage2.effNsw_of_secure (s := s.setVtcr v') secure]
    exact nsw.trans nsw'.symm

/-- Settles O54: four components are read off the view; the VMID has a size exactly while the register has an effect. -/
theorem hardwareUpdatesAndVmidSize : Obligations.HardwareUpdatesAndVmidSize := by
  intro c s
  refine ⟨rfl, rfl, rfl, rfl, ?_⟩
  by_cases h : c.haveEl2 = true ∧ s.el2Enabled = true
  · obtain ⟨el2, enabled⟩ := h
    rw [Stage2.vmidBits_of_el2 el2 enabled]
    by_cases vs : c.haveVmid16 = true ∧ s.vtcrEl2.getLsbD 19 = true <;> simp [vs, el2, enabled]
  · rw [Stage2.vmidBits_eq_none.mpr h]
    refine ⟨⟨nofun, fun e => ?_⟩, ⟨nofun, fun e => ?_⟩, by simp [h]⟩
    · exact absurd ⟨e.1, e.2.1⟩ h
    · exact absurd ⟨e.1, e.2.1⟩ h

/-- Settles O55: the configuration decides the other two. -/
theorem noEffectWhileEl2IsNotEnabled : Obligations.NoEffectWhileEl2IsNotEnabled := by
  intro c s
  refine ⟨fun off v => ?without, fun el2 enabled => ?within⟩
  case without =>
    have notBoth : ¬ (c.haveEl2 = true ∧ (s.setVtcr v).el2Enabled = true) := by
      rintro ⟨el2, enabled⟩
      rw [State.setVtcr_el2Enabled] at enabled
      simp [el2, enabled] at off
    have none := stage2Config_eq_none.mpr notBoth
    exact ⟨none, Stage2.vmidBits_eq_none.mpr notBoth, stage2Attempt_of_none none⟩
  case within =>
    refine ⟨stage2Config_of_el2 el2 enabled, ?_⟩
    rw [stage2Attempt_of_el2 el2 enabled]
    split_ifs <;> simp

/-- Settles O56, outcome by outcome of the attempt. -/
theorem whenATranslationIsRefusedOrFaults : Obligations.WhenATranslationIsRefusedOrFaults := by
  intro c s el2 enabled
  rw [stage2Attempt_of_el2 el2 enabled, ← Stage2.outputBits_eq_none]
  split_ifs with sh0 size fault
  · simp [sh0]
  · exact ⟨⟨nofun, (absurd · sh0)⟩, ⟨fun _ => ⟨sh0, size⟩, fun _ => rfl⟩, ⟨nofun, fun h => absurd size h.2.1⟩⟩
  · exact ⟨⟨nofun, (absurd · sh0)⟩, ⟨nofun, fun h => absurd h.2 size⟩, ⟨fun _ => ⟨sh0, size, fault⟩, fun _ => rfl⟩⟩
  · exact ⟨⟨nofun, (absurd · sh0)⟩, ⟨nofun, fun h => absurd h.2 size⟩, ⟨nofun, fun h => absurd h.2.2 fault⟩⟩

/-- Settles O57: (d) rules out the first refusal, (b), (e) the second, and (a), (b) the fault. -/
theorem aUsableValueConfiguresTranslation : Obligations.AUsableValueConfiguresTranslation := by
  intro c s el2 enabled usable
  obtain ⟨consistent, sl0, granule, sh0, psDefined, ps110⟩ := usable
  have sized : Stage2.outputBits c s.vtcrEl2 ≠ none := by
    rw [Ne, Stage2.outputBits_eq_none, Stage2.effPs_of_defined psDefined]
    exact fun h => h.2 (ps110 h.1)
  have numbered : Stage2.startLevel c s.vtcrEl2 ≠ .reserved := fun e => by
    obtain ⟨is11, not⟩ := Stage2.startLevelOf_eq_reserved.mp e
    exact not (sl0 is11)
  have noFault : ¬ Stage2.level0Fault c s.vtcrEl2 = true := by
    rw [Stage2.level0Fault_eq_true, consistent]
    simpa using numbered
  obtain ⟨g, programmed⟩ := Option.ne_none_iff_exists'.mp granule
  refine ⟨Stage2.view c s, ?_, Option.isSome_iff_ne_none.mpr sized,
    Option.isSome_iff_ne_none.mpr (Stage2.shareabilityOf_eq_none.not.mpr sh0), numbered, ?_⟩
  · rw [stage2Attempt_of_el2 el2 enabled, if_neg sh0, if_neg sized, if_neg noFault]
  · rw [(Vtcr.implementedGranule_eq_some.mp programmed).1]
    exact congrArg some (Vtcr.effTg0_of_implemented programmed).symm

/-- Settles O58: without an MSR at EL2 or EL3 nothing the configuration sees is written. -/
theorem onlyAnMsrChangesTheStage2Configuration : Obligations.OnlyAnMsrChangesTheStage2Configuration := by
  intro i s t c ran other
  obtain ⟨-, security, enabled, -, -, sa, -⟩ := exec_inputs_eq ran
  have vtcr : t.vtcrEl2 = s.vtcrEl2 := by
    refine (exec_vtcrEl2_eq ran).resolve_left ?_
    rintro ⟨arm, n, msr⟩
    exact other n msr arm
  have same := stage2Config_of_inputs (c := c) vtcr security enabled sa
  exact ⟨same, stage2Attempt_congr same⟩

/-- Settles O59: the components are read off the view. -/
theorem theComponentsOfTheConfiguration : Obligations.TheComponentsOfTheConfiguration := by
  intro c s k h
  obtain ⟨-, rfl⟩ := stage2Config_eq_some.mp h
  exact ⟨Stage2.regionSize_eq _, rfl, rfl, rfl, Stage2.level0Fault_eq_true⟩

end Sys2Proof.Proofs
end

section
/-! Proofs that reserved bits have no effect: every component of the view reads bits that are RW where it exists. -/

namespace Sys2Proof.Machine

section Agree

variable {c : Config} {s : State} {v : Word64}
  (agree : ∀ b, b < 64 → Vtcr.kind c b = .rw → v.getLsbD b = s.vtcrEl2.getLsbD b) (el2 : c.haveEl2 = true)
include agree el2

/-- A field inside bits 18:0, which are always RW. -/
theorem Vtcr.extract_eq_of_agree (start : Nat) {len : Nat} (h : start + len ≤ 19) :
    v.extractLsb' start len = s.vtcrEl2.extractLsb' start len := by
  refine BitVec.eq_of_getLsbD_eq fun i hi => ?_
  rw [BitVec.getLsbD_extractLsb', BitVec.getLsbD_extractLsb',
    agree _ (by omega) (Vtcr.kind_of_le_18 el2 (by omega))]

theorem Stage2.effSecurity_eq_of_agree (armv84 : c.fromArmv84 = true) :
    Stage2.effNsa (s.setVtcr v) = Stage2.effNsa s ∧ Stage2.effNsw (s.setVtcr v) = Stage2.effNsw s := by
  have isRw {b : Nat} (h : 29 ≤ b ∧ b ≤ 30) : Vtcr.kind c b = .rw := by rw [Vtcr.kind_of_29_30 el2 h, if_pos armv84]
  have nsa : Vtcr.nsa v = Vtcr.nsa s.vtcrEl2 := agree 30 (by decide) (isRw (by decide))
  have nsw : Vtcr.nsw v = Vtcr.nsw s.vtcrEl2 := agree 29 (by decide) (isRw (by decide))
  simp only [Stage2.effNsa, Stage2.effNsw, State.setVtcr_vtcrEl2, State.setVtcr_securityState, State.setVtcr_vstcrSa,
    nsa, nsw, and_self]

theorem Vtcr.hardwareUpdate_eq_of_agree (tthm : c.haveTthm = true) :
    Vtcr.ha v = Vtcr.ha s.vtcrEl2 ∧ (Vtcr.hd v && Vtcr.ha v) = (Vtcr.hd s.vtcrEl2 && Vtcr.ha s.vtcrEl2) := by
  have isRw {b : Nat} (h : 21 ≤ b ∧ b ≤ 22) : Vtcr.kind c b = .rw := by rw [Vtcr.kind_of_21_22 el2 h, if_pos tthm]
  have ha : Vtcr.ha v = Vtcr.ha s.vtcrEl2 := agree 21 (by decide) (isRw (by decide))
  have hd : Vtcr.hd v = Vtcr.hd s.vtcrEl2 := agree 22 (by decide) (isRw (by decide))
  exact ⟨ha, by rw [ha, hd]⟩

theorem Vtcr.hwu_eq_of_agree (ttpbha : c.haveTtpbha = true) :
    HwUse.mk (Vtcr.hwu62 v) (Vtcr.hwu61 v) (Vtcr.hwu60 v) (Vtcr.hwu59 v) =
      ⟨Vtcr.hwu62 s.vtcrEl2, Vtcr.hwu61 s.vtcrEl2, Vtcr.hwu60 s.vtcrEl2, Vtcr.hwu59 s.vtcrEl2⟩ := by
  have isRw {b : Nat} (h : 25 ≤ b ∧ b ≤ 28) : Vtcr.kind c b = .rw := by rw [Vtcr.kind_of_25_28 el2 h, if_pos ttpbha]
  rw [HwUse.mk.injEq]
  exact ⟨agree 28 (by decide) (isRw (by decide)), agree 27 (by decide) (isRw (by decide)),
    agree 26 (by decide) (isRw (by decide)), agree 25 (by decide) (isRw (by decide))⟩

theorem Vtcr.vs_eq_of_agree (vmid16 : c.haveVmid16 = true) : Vtcr.vs v = Vtcr.vs s.vtcrEl2 :=
  agree 19 (by decide) (by rw [Vtcr.kind_19 el2, if_pos vmid16])

theorem Vtcr.fields_eq_of_agree :
    Vtcr.ps v = Vtcr.ps s.vtcrEl2 ∧ Vtcr.tg0 v = Vtcr.tg0 s.vtcrEl2 ∧ Vtcr.sh0 v = Vtcr.sh0 s.vtcrEl2 ∧
    Vtcr.orgn0 v = Vtcr.orgn0 s.vtcrEl2 ∧ Vtcr.irgn0 v = Vtcr.irgn0 s.vtcrEl2 ∧ Vtcr.sl0 v = Vtcr.sl0 s.vtcrEl2 ∧
    Vtcr.t0sz v = Vtcr.t0sz s.vtcrEl2 :=
  have field := Vtcr.extract_eq_of_agree agree el2
  ⟨field 16 (by decide), field 14 (by decide), field 12 (by decide), field 10 (by decide), field 8 (by decide),
    field 6 (by decide), field 0 (by decide)⟩

/-- The view, component by component: those of the low fields, and those that exist with their feature alone. -/
theorem Stage2.view_eq_of_agree : Stage2.view c (s.setVtcr v) = Stage2.view c s := by
  obtain ⟨ps, tg0, sh0, orgn0, irgn0, sl0, t0sz⟩ := Vtcr.fields_eq_of_agree agree el2
  have granule : Vtcr.effTg0 c v = Vtcr.effTg0 c s.vtcrEl2 := Vtcr.effTg0_congr c tg0
  have eff : Stage2.effPs c v = Stage2.effPs c s.vtcrEl2 := by rw [Stage2.effPs, Stage2.effPs, ps]
  have outputBits : Stage2.outputBits c v = Stage2.outputBits c s.vtcrEl2 := by
    rw [Stage2.outputBits, Stage2.outputBits, Stage2.ps110Permitted, Stage2.ps110Permitted, eff, granule]
  have startLevel : Stage2.startLevel c v = Stage2.startLevel c s.vtcrEl2 := by
    rw [Stage2.startLevel, Stage2.startLevel, granule, sl0]
  have outputNs := Stage2.present_congr fun on => (Stage2.effSecurity_eq_of_agree agree el2 on).1
  have walkNs := Stage2.present_congr fun on => (Stage2.effSecurity_eq_of_agree agree el2 on).2
  have accessFlag := Stage2.present_congr fun on => (Vtcr.hardwareUpdate_eq_of_agree agree el2 on).1
  have dirty := Stage2.present_congr fun on => (Vtcr.hardwareUpdate_eq_of_agree agree el2 on).2
  have hwUse := Stage2.present_congr (Vtcr.hwu_eq_of_agree agree el2)
  have vmid16 := Stage2.present_congr (Vtcr.vs_eq_of_agree agree el2)
  simp only [Stage2.view, State.setVtcr_vtcrEl2, Stage2.regionSize, Stage2.tableBaseHighZero, Stage2.level0Fault,
    sh0, orgn0, irgn0, sl0, t0sz, granule, eff, outputBits, startLevel, outputNs, walkNs, accessFlag, dirty, hwUse,
    vmid16]

end Agree

end Sys2Proof.Machine

namespace Sys2Proof.Proofs

open Sys2Proof.Machine

/-- Settles O60: without EL2 there is no configuration; with it the views are equal. The VMID size and the attempt are
functions of the configuration. -/
theorem reservedBitsHaveNoEffect : Obligations.ReservedBitsHaveNoEffect := by
  intro c s v agree
  have same : stage2Config c (s.setVtcr v) = stage2Config c s := by
    by_cases h : c.haveEl2 = true ∧ s.el2Enabled = true
    · rw [stage2Config_of_el2 h.1 h.2, stage2Config_of_el2 (s := s.setVtcr v) h.1 h.2,
        Stage2.view_eq_of_agree agree h.1]
    · have off : stage2Config c (s.setVtcr v) = none := stage2Config_eq_none.mpr h
      rw [off, stage2Config_eq_none.mpr h]
  exact ⟨same, by rw [Stage2.vmidBits, Stage2.vmidBits, same], stage2Attempt_congr same⟩

end Sys2Proof.Proofs
end
